-- ==== Sys2Proof/Word.lean ====
section
/-! DEFINITION. The words the spec moves: bytes of the model's storage, 32-bit words, 16-bit word addresses, 64-bit note keys, voice indices. -/

namespace Sys2Proof

/-- One cell's contents in the model's storage (`20_memory.md` R63: the hardware itself moves whole words). -/
abbrev Byte := BitVec 8

/-- A 32-bit word of the host register space (`10_state.md` R40). -/
abbrev Word := BitVec 32

/-- A 16-bit word address (`10_state.md` R40). -/
abbrev Addr := BitVec 16

/-- A note key, 64 bits, opaque to the hardware (`30_encoding.md` R82). -/
abbrev Key := BitVec 64

/-- The index of a melody event, 0 to 1023 (`20_memory.md` R60). -/
abbrev EventIndex := BitVec 10

/-- A voice, 0 to 4 (`00_scope.md` R6). -/
abbrev Voice := Fin 5

end Sys2Proof
end

