-- ==== Sys2Proof/Syntax.lean ====
section
/-! DEFINITION. The instructions: one constructor for each mnemonic of spec/opcode_table.json (17 mnemonics in 45 rows; the rows
that repeat a `WR.*` mnemonic once a voice are one constructor with the voice as an operand). -/

namespace Sys2Proof

/-- The operations the hardware decodes, from its four encoding spaces (`30_encoding.md` R80, R81, R84). -/
inductive Instr where
  /-- `NOTE key, dur`: a melody event (`44_scheduler.md` R146). -/
  | note (key : Key) (dur : Word)
  /-- `PULSE`: `VCFG.KIND = 0` (`41_pulse.md` R110); `metal` is `VCFG.METAL`, stored and unused. -/
  | pulse (metal : Bool)
  /-- `TRIANGLE`: `VCFG.KIND = 1` (`42_triangle.md` R120); `metal` as for `pulse`. -/
  | triangle (metal : Bool)
  /-- `NOISE`: `VCFG.KIND = 2`, `METAL = 0` (`43_noise.md` R130). -/
  | noise
  /-- `NOISE.M`: `VCFG.KIND = 2`, `METAL = 1` (`43_noise.md` R130). -/
  | noiseM
  /-- `VCFG.RSVD`: `VCFG.KIND = 3`, reserved (`30_encoding.md` R87). -/
  | vcfgRsvd (metal : Bool)
  /-- `START`: a write to `CTRL` with bit 0 = 1 (`45_host.md` R170). -/
  | start
  /-- `CTRL.NOP`: a write to `CTRL` with bit 0 = 0 (`45_host.md` R170). -/
  | ctrlNop
  /-- `WR.VCFG` (`45_host.md` R174). -/
  | wrVcfg (v : Voice) (data : Word)
  /-- `WR.DUTY` (`45_host.md` R174). -/
  | wrDuty (v : Voice) (data : Word)
  /-- `WR.SEED` (`45_host.md` R174). -/
  | wrSeed (v : Voice) (data : Word)
  /-- `WR.LEN` (`45_host.md` R174). -/
  | wrLen (v : Voice) (data : Word)
  /-- `WR.KEY_LO` (`45_host.md` R175). -/
  | wrKeyLo (v : Voice) (i : EventIndex) (data : Word)
  /-- `WR.KEY_HI` (`45_host.md` R175). -/
  | wrKeyHi (v : Voice) (i : EventIndex) (data : Word)
  /-- `WR.DUR` (`45_host.md` R175). -/
  | wrDur (v : Voice) (i : EventIndex) (data : Word)
  /-- `WR.BAD`: a host write to any other address (`45_host.md` R176). -/
  | wrBad (addr : Addr) (data : Word)
  /-- `RD`: a host read (`45_host.md` R178). -/
  | rd (addr : Addr)
deriving DecidableEq, Repr

/-- An encoded operation: the encoding space it stands in, and its bits, bit 0 the least significant of the
space's first word (`30_encoding.md` R80, R81, R84). -/
inductive Encoded where
  /-- Format `EV`: `DUR` in bits 95:64, `KEY_HI` in 63:32, `KEY_LO` in 31:0 (R80). -/
  | event (w : BitVec 96)
  /-- Format `VCFG` (R81). -/
  | vcfg (w : BitVec 32)
  /-- Format `HW`: the word address in bits 47:32, the data in 31:0 (R84). -/
  | hostWrite (w : BitVec 48)
  /-- Format `HR`: the word address (R84). -/
  | hostRead (w : BitVec 16)
deriving DecidableEq, Repr

end Sys2Proof
end

