-- ==== Sys2Proof/WellFormed.lean ====
section
/-! DEFINITION. Which instructions have an encoding: all, but for a `WR.BAD` whose address an earlier row of `30_encoding.md` R86 takes. -/

namespace Sys2Proof

/-- The address of `CTRL` (`10_state.md` R40). -/
def isCtrlAddr (a : Addr) : Bool := a == 0x0000

/-- Whether a 4-bit address field holds `v + 1` for a voice `v` (`30_encoding.md` R86). -/
def isVoiceField (x : Nat) : Bool := 1 ≤ x && x ≤ 5

/-- An address `VB(v)+0` to `VB(v)+3` of a writable configuration register (`30_encoding.md` R86). -/
def isCfgAddr (a : Addr) : Bool :=
  a.toNat / 0x1000 == 0 && isVoiceField (a.toNat / 0x100) && a.toNat % 0x100 ≤ 3

/-- An address `MB(v)+4i+0` to `MB(v)+4i+2` of a melody word (`30_encoding.md` R86). -/
def isMelAddr (a : Addr) : Bool := isVoiceField (a.toNat / 0x1000) && a.toNat % 4 ≤ 2

/-- The check on an instruction's operands: every operand's own type bounds it, but the address of `WR.BAD`,
which must be one that no earlier row of the write decode takes (`30_encoding.md` R86). -/
def Instr.wellFormed : Instr → Bool
  | .wrBad a _ => !isCtrlAddr a && !isCfgAddr a && !isMelAddr a
  | .note _ _ | .pulse _ | .triangle _ | .noise | .noiseM | .vcfgRsvd _ | .start | .ctrlNop
  | .wrVcfg _ _ | .wrDuty _ _ | .wrSeed _ _ | .wrLen _ _
  | .wrKeyLo _ _ _ | .wrKeyHi _ _ _ | .wrDur _ _ _ | .rd _ => true

end Sys2Proof
end

