-- ==== Sys2Proof/Decode.lean ====
section
/-! DEFINITION. The decoder of the four encoding spaces, total and rejecting by name a width that no space has, and the encoder. -/

namespace Sys2Proof

/-- Why bits are no instruction: no encoding space has that width (`30_encoding.md` R80, R81, R84, R88). -/
inductive DecodeError where
  | noFormatOfWidth (nbits : Nat)
deriving DecidableEq, Repr

/-- The address field `v + 1` of a voice (`30_encoding.md` R86: the legal values are 1 to 5). -/
def voiceOfField (x : Nat) : Option Voice :=
  if h : 1 ≤ x ∧ x ≤ 5 then some ⟨x - 1, by omega⟩ else none

/-- `VB(v) + o`, the address of a per-voice register (`10_state.md` R40). -/
def regAddr (v : Voice) (o : Nat) : Nat := 0x0100 * (v.val + 1) + o

/-- `MB(v) + 4i + n`, the address of a word of a melody event (`10_state.md` R40). -/
def melAddr (v : Voice) (i : EventIndex) (n : Nat) : Nat := 0x1000 * (v.val + 1) + 4 * i.toNat + n

/-- What stands at an address of the host register space (`10_state.md` R40). -/
inductive Place where
  | ctrl
  | status
  /-- `VB(v) + o`, `o` at most 6. -/
  | reg (v : Voice) (o : Nat)
  /-- `MB(v) + 4i + n`, `n` at most 2. -/
  | mel (v : Voice) (i : EventIndex) (n : Nat)
  /-- The reserved word of an event, or an unmapped address. -/
  | nothing
deriving DecidableEq, Repr

/-- The address map of `10_state.md` R40, by the address bits of `30_encoding.md` R86. -/
def placeOf (a : Addr) : Place :=
  if a = 0x0000 then .ctrl
  else if a = 0x0001 then .status
  else if a.toNat / 0x1000 = 0 then
    match voiceOfField (a.toNat / 0x100) with
    | some v => if a.toNat % 0x100 ≤ 6 then .reg v (a.toNat % 0x100) else .nothing
    | none => .nothing
  else
    match voiceOfField (a.toNat / 0x1000) with
    | some v => if a.toNat % 4 ≤ 2 then .mel v (BitVec.ofNat 10 (a.toNat / 4)) (a.toNat % 4) else .nothing
    | none => .nothing

/-- The host write decode of `30_encoding.md` R86, first matching row first. -/
def decodeWrite (a : Addr) (d : Word) : Instr :=
  match placeOf a with
  | .ctrl => if d.getLsbD 0 then .start else .ctrlNop
  | .reg v 0 => .wrVcfg v d
  | .reg v 1 => .wrDuty v d
  | .reg v 2 => .wrSeed v d
  | .reg v 3 => .wrLen v d
  | .mel v i 0 => .wrKeyLo v i d
  | .mel v i 1 => .wrKeyHi v i d
  | .mel v i _ => .wrDur v i d
  | .status | .reg _ _ | .nothing => .wrBad a d

/-- The decode of a voice configuration word (`30_encoding.md` R81, R85): `KIND` in bits 1:0, `METAL` in bit 2. -/
def decodeVcfg (w : BitVec 32) : Instr :=
  match w.getLsbD 1, w.getLsbD 0 with
  | false, false => .pulse (w.getLsbD 2)
  | false, true => .triangle (w.getLsbD 2)
  | true, false => if w.getLsbD 2 then .noiseM else .noise
  | true, true => .vcfgRsvd (w.getLsbD 2)

/-- The decoder: every value of every space is an instruction (`30_encoding.md` R85, R86). -/
def decode : Encoded → Instr
  | .event w => .note (w.extractLsb' 0 64) (w.extractLsb' 64 32)
  | .vcfg w => decodeVcfg w
  | .hostWrite w => decodeWrite (w.extractLsb' 32 16) (w.extractLsb' 0 32)
  | .hostRead a => .rd a

/-- The encoding space of that width, and the bits in it (`30_encoding.md` R80, R81, R84). -/
def encodedOfBits (nbits w : Nat) : Except DecodeError Encoded :=
  match nbits with
  | 96 => .ok (.event (BitVec.ofNat 96 w))
  | 48 => .ok (.hostWrite (BitVec.ofNat 48 w))
  | 32 => .ok (.vcfg (BitVec.ofNat 32 w))
  | 16 => .ok (.hostRead (BitVec.ofNat 16 w))
  | n => .error (.noFormatOfWidth n)

/-- The decoder on `nbits` bits, total, refusing a width that no space has by name. -/
def decodeBits (nbits w : Nat) : Except DecodeError Instr := (encodedOfBits nbits w).map decode

/-- The instruction the decoder reads from `nbits` bits numbered as spec/opcode_table.json numbers them. -/
def decodeTableWord (nbits w : Nat) : Option Instr :=
  match decodeBits nbits w with
  | .ok i => some i
  | .error _ => none

/-- A voice configuration word from `KIND` and `METAL` (`30_encoding.md` R81; bits 31:3 are 0 on a read). -/
def vcfgWord (kind : BitVec 2) (metal : Bool) : BitVec 32 := 0#29 ++ BitVec.ofBool metal ++ kind

/-- A host write word from its address and data (`30_encoding.md` R84). -/
def writeWord (a : Nat) (d : Word) : BitVec 48 := BitVec.ofNat 16 a ++ d

/-- The encoder, from the same tables; ignored bits (`data[31:1]` of a `CTRL` write, `VCFG[31:3]`) are 0 (log 13). -/
def encode : Instr → Encoded
  | .note key dur => .event (dur ++ key)
  | .pulse m => .vcfg (vcfgWord 0 m)
  | .triangle m => .vcfg (vcfgWord 1 m)
  | .noise => .vcfg (vcfgWord 2 false)
  | .noiseM => .vcfg (vcfgWord 2 true)
  | .vcfgRsvd m => .vcfg (vcfgWord 3 m)
  | .start => .hostWrite (writeWord 0x0000 1)
  | .ctrlNop => .hostWrite (writeWord 0x0000 0)
  | .wrVcfg v d => .hostWrite (writeWord (regAddr v 0) d)
  | .wrDuty v d => .hostWrite (writeWord (regAddr v 1) d)
  | .wrSeed v d => .hostWrite (writeWord (regAddr v 2) d)
  | .wrLen v d => .hostWrite (writeWord (regAddr v 3) d)
  | .wrKeyLo v i d => .hostWrite (writeWord (melAddr v i 0) d)
  | .wrKeyHi v i d => .hostWrite (writeWord (melAddr v i 1) d)
  | .wrDur v i d => .hostWrite (writeWord (melAddr v i 2) d)
  | .wrBad a d => .hostWrite (a ++ d)
  | .rd a => .hostRead a

end Sys2Proof
end

