-- ==== Sys2Proof/Config.lean ====
section
/-! DEFINITION. What is fixed for the machine: the spec's parameters (`00_scope.md` R6, R7) and the two free values it leaves open. -/

namespace Sys2Proof

/-- The answer of the FrequencyTable port to a key (`10_state.md` R44). -/
inductive FtAnswer where
  | miss
  | hit (fcw : Word)
deriving DecidableEq, Repr, Inhabited

namespace Config

/-- `RAMP_N`: ramp length in samples (`00_scope.md` R7, `40_envelope.md` R104). -/
abbrev rampN : Nat := 882

/-- `W_ONE`: the integer that stands for waveform level 1 (`00_scope.md` R7). -/
abbrev wOne : Int := 1073741824

/-- `LVL_FULL`: level numerator of gain 0.1 alone, over 50 (`00_scope.md` R7). -/
abbrev lvlFull : Nat := 5

/-- `LVL_METAL`: level numerator of 0.8 times 0.1, over 50 (`00_scope.md` R7). -/
abbrev lvlMetal : Nat := 4

/-- `SMP_SCALE`: the sample word that stands for real level 1 (`00_scope.md` R7, R9). -/
abbrev smpScale : Nat := 47352014438400

/-- `MEL_DEPTH`: melody events stored for a voice (`00_scope.md` R7). -/
abbrev melDepth : Nat := 1024

/-- Samples in ten milliseconds, `FS / 100` (`44_scheduler.md` R147). -/
abbrev samplesPerTenMs : Nat := 441

/-- `SEED_RESET` (`00_scope.md` R7). -/
abbrev seedReset : Word := 0x00000001

/-- The duty presets 0.125, 0.25 and 0.50 (`41_pulse.md` R112). -/
abbrev dutyEighth : Word := 0x20000000
abbrev dutyQuarter : Word := 0x40000000
abbrev dutyHalf : Word := 0x80000000

/-- The three xorshift amounts (`00_scope.md` R6, `43_noise.md` R131). -/
abbrev xorShiftA : Nat := 7
abbrev xorShiftB : Nat := 9
abbrev xorShiftC : Nat := 13

/-- FREE VALUE. The contents of the external FrequencyTable for every key the environment has not pinned in
`State.ft` (`10_state.md` R44; the source gives no entry). Log 3. -/
opaque freqTable : Key → FtAnswer

/-- FREE VALUE. What a host read of a cell of melody memory that no host write has reached since power-on gives
(`45_host.md` R178: unspecified, any value). Log 1. -/
opaque powerOnByte : Nat → Byte

end Config

end Sys2Proof
end

