-- ==== Sys2Proof/Machine/State.lean ====
section
/-! DEFINITION. The state of rustywav CORE (`10_state.md` R20), its outputs, the environment's inputs, and the state after reset (R49). -/

namespace Sys2Proof.Machine

/-- Why a step faults. NOBODY raises a fault: the hardware has none (`60_exceptions.md` R190, R204), so the type is empty.
Safe: nothing is stopped that the hardware carries out. -/
inductive Fault where
deriving DecidableEq, Repr

/-- Why an instruction is refused. -/
inductive Refusal where
  /-- Raised only by an arm of `exec` for an instruction that has no meaning yet (none at present). Safe: the run stops. -/
  | notModelled (mnemonic : String)
  /-- Raised by the scheduler's fetch, of an event one of whose words no host write has reached since power-on: the spec defines no behaviour
  there and asks a model to refuse the run (`60_exceptions.md` R204, `70_reset_and_hazards.md` R226). Safe: the run stops. Log 1. -/
  | unwrittenEvent
deriving DecidableEq, Repr

/-- `VCFG.KIND` (`10_state.md` R23); the value 3 is never held, so there is no fourth constructor. -/
inductive Kind where
  | pulse
  | triangle
  | noise
deriving DecidableEq, Repr

/-- `VCFG[v]`: `KIND` and `METAL` (`10_state.md` R23). -/
structure Vcfg where
  kind : Kind
  metal : Bool
deriving DecidableEq, Repr

/-- `ST[v]`, the scheduler state (`10_state.md` R27; `93_implementation_defined.md` U4: three constructors). -/
inductive SchedState where
  | idle
  | playing
  | finished
deriving DecidableEq, Repr

/-- The registers of one voice (`10_state.md` R23 to R36). -/
structure VoiceRegs where
  /-- `VCFG[v]` (R23). -/
  vcfg : Vcfg
  /-- `DUTY[v]` (R24). -/
  duty : Word
  /-- `SEED[v]` (R25). -/
  seed : Word
  /-- `LEN[v]` (R28). -/
  len : BitVec 11
  /-- `PTR[v]`, the event pointer (R26). -/
  ptr : BitVec 11
  /-- `ST[v]` (R27). -/
  st : SchedState
  /-- `NOTES[v]` (R29). -/
  notes : Word
  /-- `GATE[v]` (R36). -/
  gate : BitVec 38
  /-- `FCW[v]` (R31). -/
  fcw : Word
  /-- `PHASE[v]` (R30). -/
  phase : Word
  /-- `ENV[v]` (R32). -/
  env : BitVec 10
  /-- `RDONE[v]` (R34). -/
  rdone : Bool
  /-- `LFSR[v]` (R35). -/
  lfsr : Word
deriving DecidableEq, Repr

/-- A sample port's value in the latest tick (`10_state.md` R45); `data` is two's complement (`00_scope.md` R11). -/
structure SamplePort where
  valid : Bool
  data : BitVec 44
  first : Bool
  last : Bool
deriving DecidableEq, Repr

/-- The port of a voice that emits nothing in a tick: all four values 0 (`10_state.md` R45). -/
def SamplePort.silent : SamplePort := { valid := false, data := 0, first := false, last := false }

/-- What the environment can do to the hardware (`00_scope.md` R5): a host write or read (as its encoded word), a tick, a reset. -/
inductive Input where
  /-- A host write, 48 bits (`30_encoding.md` R84). -/
  | write (w : BitVec 48)
  /-- A host read, 16 bits (`30_encoding.md` R84). -/
  | read (a : BitVec 16)
  /-- One sample period (`10_state.md` R46). -/
  | tick
  /-- Reset asserted and released (`10_state.md` R47). -/
  | reset
deriving DecidableEq, Repr

/-- The storage of the melody memory: (cell, byte) pairs, cells strictly rising; an unlisted cell has no value
(`10_state.md` R38). A 32-bit word at host address `A` is the cells `4A` to `4A+3`, least significant byte first (log 8). -/
abbrev Memory := List Host.Cell

/-- The canonical form of a memory: cells strictly rising (an unlisted cell has no value, so no entry repeats it). -/
def Memory.wf : Memory → Bool
  | [] => true
  | [_] => true
  | (a, _) :: (b, y) :: rest => a < b && Memory.wf ((b, y) :: rest)

/-- The whole machine (`10_state.md` R20), its outputs (R45, `45_host.md` R178), and the environment's own data. -/
structure State where
  /-- `RUN` (R21). -/
  run : Bool
  /-- `CFGERR` (R22). -/
  cfgerr : Bool
  /-- The five voices' registers (R23 to R36). -/
  voices : Vector VoiceRegs 5
  /-- The melody memory `MEL` (R38). -/
  mel : Memory
  /-- Output: the five sample ports' values in the latest tick (R45; log 6). -/
  ports : Vector SamplePort 5
  /-- Output: the word the latest host read returned (`45_host.md` R178; log 7). -/
  readData : Option Word
  /-- The environment's: FrequencyTable answers it pins; no step changes them (R44; log 3). -/
  ft : List (Key × FtAnswer)
  /-- The environment's: the inputs it delivers next, first one first (log 4). -/
  pending : List Input
  /-- The model's own: the voice whose turn it is inside a tick (log 5). -/
  cur : Voice
deriving DecidableEq, Repr

/-- A voice's registers after reset with the given configuration (`10_state.md` R49). -/
def VoiceRegs.reset (kind : Kind) (duty : Word) : VoiceRegs where
  vcfg := { kind := kind, metal := false }
  duty := duty
  seed := Config.seedReset
  len := 0
  ptr := 0
  st := .idle
  notes := 0
  gate := 0
  fcw := 0
  phase := 0
  env := 0
  rdone := false
  lfsr := Config.seedReset

/-- The machine right after reset (`10_state.md` R49, `70_reset_and_hazards.md` R220), no melody word written since power-on (R38; log 16). -/
def State.reset : State where
  run := false
  cfgerr := false
  voices := #v[.reset .pulse Config.dutyEighth, .reset .pulse Config.dutyQuarter, .reset .pulse Config.dutyHalf,
    .reset .triangle Config.dutyHalf, .reset .noise Config.dutyHalf]
  mel := []
  ports := #v[.silent, .silent, .silent, .silent, .silent]
  readData := none
  ft := []
  pending := []
  cur := 0

end Sys2Proof.Machine
end

