-- ==== Sys2Proof/Machine/Ops.lean ====
section
/-! DEFINITION. The named operations over registers, ports, melody memory and the FrequencyTable. The hardware takes no exception
and returns from none (`60_exceptions.md` R190, R195, R196): its one error effect is `dropWrite`. -/

namespace Sys2Proof.Machine

/-- What a step or a meaning answers. -/
abbrev Result := Host.Outcome State Fault Refusal

/-- Go on with the next state, or stop where the first part stopped. -/
def andThen (o : Result) (f : State → Result) : Result :=
  match o with
  | .next s => f s
  | .fault r => .fault r
  | .refused r => .refused r

/-- The registers of voice `v`. -/
def State.voice (s : State) (v : Voice) : VoiceRegs := s.voices.get v

/-- Write all registers of voice `v`. -/
def State.setVoice (s : State) (v : Voice) (r : VoiceRegs) : State := { s with voices := s.voices.set v r }

/-- The sample port of voice `v` (`10_state.md` R45). -/
def State.port (s : State) (v : Voice) : SamplePort := s.ports.get v

/-- Drive the sample port of voice `v` (`emit`, `00_scope.md` R12). -/
def State.setPort (s : State) (v : Voice) (p : SamplePort) : State := { s with ports := s.ports.set v p }

/-- Write `RUN` (`10_state.md` R21). -/
def State.setRun (s : State) (b : Bool) : State := { s with run := b }

/-- Hand the host the word a read returns (`45_host.md` R178). -/
def State.setReadData (s : State) (d : Word) : State := { s with readData := some d }

/-- Give the turn to voice `v` (log 5). -/
def State.setCur (s : State) (v : Voice) : State := { s with cur := v }

/-- Replace the environment's queue of inputs (log 4). -/
def State.setPending (s : State) (q : List Input) : State := { s with pending := q }

/-- Replace the answers the environment pins (log 3). -/
def State.setFt (s : State) (f : List (Key × FtAnswer)) : State := { s with ft := f }

/-- Every sample port shows invalid (`10_state.md` R45). -/
def State.silence (s : State) : State := { s with ports := #v[.silent, .silent, .silent, .silent, .silent] }

/-- A cell of memory, if anything has written it. -/
def memRead? : Memory → Nat → Option Byte
  | [], _ => none
  | (k, b) :: rest, a => if k = a then some b else memRead? rest a

/-- Write a cell of memory, keeping the cells rising. -/
def memWrite : Memory → Nat → Byte → Memory
  | [], a, b => [(a, b)]
  | (k, c) :: rest, a, b =>
    if a < k then (a, b) :: (k, c) :: rest
    else if a = k then (a, b) :: rest
    else (k, c) :: memWrite rest a b

/-- A cell of melody memory as a host reads it: what was written, else the free value (`45_host.md` R178; log 1). -/
def State.byte (s : State) (a : Nat) : Byte := (memRead? s.mel a).getD (Config.powerOnByte a)

/-- The 32-bit word at host word address `a` of the melody window (`20_memory.md` R65). -/
def State.word (s : State) (a : Nat) : Word :=
  s.byte (4 * a + 3) ++ s.byte (4 * a + 2) ++ s.byte (4 * a + 1) ++ s.byte (4 * a)

/-- Store a 32-bit word in memory at host word address `a`, least significant byte in the lowest cell (log 8). -/
def memWriteWord (m : Memory) (a : Nat) (d : Word) : Memory :=
  let m0 := memWrite m (4 * a) (d.extractLsb' 0 8)
  let m1 := memWrite m0 (4 * a + 1) (d.extractLsb' 8 8)
  let m2 := memWrite m1 (4 * a + 2) (d.extractLsb' 16 8)
  memWrite m2 (4 * a + 3) (d.extractLsb' 24 8)

/-- Store a 32-bit word at host word address `a` of the melody window (`20_memory.md` R65). -/
def State.setWord (s : State) (a : Nat) (d : Word) : State := { s with mel := memWriteWord s.mel a d }

/-- `MEL[v][i]`, word `n` (`10_state.md` R38). -/
def State.melWord (s : State) (v : Voice) (i : EventIndex) (n : Nat) : Word := s.word (melAddr v i n)

/-- Whether the word at host word address `a` of the melody window has a value (`10_state.md` R38). -/
def State.wordWritten (s : State) (a : Nat) : Bool :=
  (memRead? s.mel (4 * a)).isSome && (memRead? s.mel (4 * a + 1)).isSome &&
    (memRead? s.mel (4 * a + 2)).isSome && (memRead? s.mel (4 * a + 3)).isSome

/-- Whether all three words of an event have a value (`20_memory.md` R62). -/
def State.eventWritten (s : State) (v : Voice) (i : EventIndex) : Bool :=
  s.wordWritten (melAddr v i 0) && s.wordWritten (melAddr v i 1) && s.wordWritten (melAddr v i 2)

/-- `MelFetch(v, i)` (`20_memory.md` R62), as the event's 96 bits (`30_encoding.md` R80); no value if one of its words has none. -/
def State.melFetch (s : State) (v : Voice) (i : EventIndex) : Option (BitVec 96) :=
  if s.eventWritten v i then some (s.melWord v i 2 ++ s.melWord v i 1 ++ s.melWord v i 0) else none

/-- The answer the environment has pinned for a key, if any. -/
def pinned : List (Key × FtAnswer) → Key → Option FtAnswer
  | [], _ => none
  | (k, r) :: rest, key => if k = key then some r else pinned rest key

/-- `FT(key)` (`10_state.md` R44): the pinned answer, else the free table's. -/
def State.lookup (s : State) (key : Key) : FtAnswer := (pinned s.ft key).getD (Config.freqTable key)

/-- A host write that the hardware drops: `CFGERR <- 1` and nothing else (`10_state.md` R22, `45_host.md` R177). -/
def dropWrite (s : State) : State := { s with cfgerr := true }

/-- A configuration or melody write: dropped while `RUN = 1` (`45_host.md` R172) or when its data is not legal (R173). -/
def configWrite (s : State) (legal : Bool) (written : State) : State :=
  if s.run = true ∨ legal = false then dropWrite s else written

/-- The reset input (`70_reset_and_hazards.md` R220, R221): every register and port at `10_state.md` R49's value, melody memory kept;
the environment's own data and the latest read's word are not the hardware's and stay (log 12). -/
def State.applyReset (s : State) : State :=
  { State.reset with mel := s.mel, readData := s.readData, ft := s.ft, pending := s.pending }

end Sys2Proof.Machine
end

