-- ==== Sys2Proof/Machine/Flags.lean ====
section
/-! DEFINITION. Status bits: `FIN`, `PLAY`, `ALLDONE`, the words `STATUS` and `VSTAT` (`10_state.md` R39, R42, R43), and the marks
`first` and `last` of a sample (`44_scheduler.md` R151, R152). -/

namespace Sys2Proof.Machine

/-- `FIN[v]` (`10_state.md` R39). -/
def State.fin (s : State) (v : Voice) : Bool := (s.voice v).st == .finished

/-- `PLAY[v]` (`10_state.md` R39). -/
def State.play (s : State) (v : Voice) : Bool := (s.voice v).st == .playing

/-- `ALLDONE`, carried by the output `all_done` (`10_state.md` R39, `60_exceptions.md` R193). -/
def State.allDone (s : State) : Bool := s.fin 0 && s.fin 1 && s.fin 2 && s.fin 3 && s.fin 4

/-- Five per-voice bits, voice 0 the least significant. -/
def fiveBits (f : Voice → Bool) : BitVec 5 :=
  BitVec.ofBool (f 4) ++ BitVec.ofBool (f 3) ++ BitVec.ofBool (f 2) ++ BitVec.ofBool (f 1) ++ BitVec.ofBool (f 0)

/-- `STATUS` (`10_state.md` R42). -/
def State.statusWord (s : State) : Word :=
  0#13 ++ BitVec.ofBool s.cfgerr ++ BitVec.ofBool s.run ++ BitVec.ofBool s.allDone
    ++ 0#3 ++ fiveBits s.play ++ 0#3 ++ fiveBits s.fin

/-- `ST[v]`'s value (`10_state.md` R27). -/
def stBits (x : SchedState) : BitVec 2 :=
  match x with
  | .idle => 0
  | .playing => 1
  | .finished => 2

/-- `VSTAT[v]` (`10_state.md` R43, `45_host.md` R178): a host can read `RDONE`, as these two rules say; `00_scope.md` R14 says that it cannot,
and the model sets that clause of R14 aside (DESIGN CHOICE, log 17). -/
def vstatWord (r : VoiceRegs) : Word := 0#29 ++ BitVec.ofBool r.rdone ++ stBits r.st

/-- `first`: the sample about to be emitted is the note's sample 0 (`44_scheduler.md` R151). -/
def isFirst (r : VoiceRegs) : Bool := r.env == 0 && !r.rdone

/-- `last`: the sample about to be emitted is the note's final one (`44_scheduler.md` R151). -/
def isLast (r : VoiceRegs) : Bool := r.gate == 1

end Sys2Proof.Machine
end

