-- ==== Sys2Proof/Machine/Operands.lean ====
section
/-! DEFINITION. Operand forms: the `VCFG` word of a register and back, the gate length of a duration, the signed sample word. -/

namespace Sys2Proof.Machine

/-- The `KIND` field's value (`10_state.md` R23). -/
def kindBits (k : Kind) : BitVec 2 :=
  match k with
  | .pulse => 0
  | .triangle => 1
  | .noise => 2

/-- `VCFG[v]` as a 32-bit word, bits 31:3 zero (`30_encoding.md` R81, `45_host.md` R178). -/
def vcfgToWord (c : Vcfg) : Word := vcfgWord (kindBits c.kind) c.metal

/-- The register value of a `VCFG` write's data, none for the reserved `KIND = 3` (`30_encoding.md` R81, R87). -/
def vcfgOfWord (d : Word) : Option Vcfg :=
  match d.getLsbD 1, d.getLsbD 0 with
  | false, false => some { kind := .pulse, metal := d.getLsbD 2 }
  | false, true => some { kind := .triangle, metal := d.getLsbD 2 }
  | true, false => some { kind := .noise, metal := d.getLsbD 2 }
  | true, true => none

/-- `floor(DUR * 441 / 10)`, the samples of a note (`44_scheduler.md` R147, `30_encoding.md` R83). -/
def gateLength (dur : Word) : Nat := dur.toNat * Config.samplesPerTenMs / 10

/-- The sample word of an exact integer product: 44 bits, two's complement (`44_scheduler.md` R150, `00_scope.md` R11; log 14). -/
def sampleWord (x : Int) : BitVec 44 := BitVec.ofInt 44 x

/-- The event index of a pointer (`20_memory.md` R62: called only with an index below 1024; log 10). -/
def eventIndex (ptr : BitVec 11) : EventIndex := ptr.setWidth 10

end Sys2Proof.Machine
end

