-- ==== Sys2Proof/Machine/HostOps.lean ====
section
/-! DEFINITION. The host operations (`45_host.md`). -/

namespace Sys2Proof.Machine

/-- `START` (`45_host.md` R170). -/
def execStart (s : State) : Result := .next (if s.run then dropWrite s else s.setRun true)

/-- `CTRL.NOP` (`45_host.md` R170). -/
def execCtrlNop (s : State) : Result := .next s

/-- `WR.VCFG` (`45_host.md` R172 to R174): `KIND` and `METAL` together; `KIND = 3` is dropped. -/
def execWrVcfg (v : Voice) (d : Word) (s : State) : Result :=
  match vcfgOfWord d with
  | some c => .next (configWrite s true (s.setVoice v { s.voice v with vcfg := c }))
  | none => .next (dropWrite s)

/-- `WR.DUTY` (`45_host.md` R172 to R174). -/
def execWrDuty (v : Voice) (d : Word) (s : State) : Result :=
  .next (configWrite s (d != 0) (s.setVoice v { s.voice v with duty := d }))

/-- `WR.SEED` (`45_host.md` R172 to R174): `LFSR[v]` is not touched. -/
def execWrSeed (v : Voice) (d : Word) (s : State) : Result :=
  .next (configWrite s (d != 0) (s.setVoice v { s.voice v with seed := d }))

/-- `WR.LEN` (`45_host.md` R172 to R174): all 32 bits are compared. -/
def execWrLen (v : Voice) (d : Word) (s : State) : Result :=
  .next (configWrite s (d.toNat ≤ Config.melDepth) (s.setVoice v { s.voice v with len := d.setWidth 11 }))

/-- `WR.KEY_LO` (`45_host.md` R172, R175). -/
def execWrKeyLo (v : Voice) (i : EventIndex) (d : Word) (s : State) : Result :=
  .next (configWrite s true (s.setWord (melAddr v i 0) d))

/-- `WR.KEY_HI` (`45_host.md` R172, R175). -/
def execWrKeyHi (v : Voice) (i : EventIndex) (d : Word) (s : State) : Result :=
  .next (configWrite s true (s.setWord (melAddr v i 1) d))

/-- `WR.DUR` (`45_host.md` R172, R175). -/
def execWrDur (v : Voice) (i : EventIndex) (d : Word) (s : State) : Result :=
  .next (configWrite s true (s.setWord (melAddr v i 2) d))

/-- `WR.BAD` (`45_host.md` R176): `CFGERR <- 1` in either phase. -/
def execWrBad (s : State) : Result := .next (dropWrite s)

/-- The register at offset `o` of a voice's block (`45_host.md` R178). -/
def regWord (r : VoiceRegs) (o : Nat) : Word :=
  match o with
  | 0 => vcfgToWord r.vcfg
  | 1 => r.duty
  | 2 => r.seed
  | 3 => r.len.setWidth 32
  | 4 => r.ptr.setWidth 32
  | 5 => r.notes
  | 6 => vstatWord r
  | _ => 0

/-- The word a host read of `a` returns (`45_host.md` R178). -/
def hostRead (s : State) (a : Addr) : Word :=
  match placeOf a with
  | .ctrl => (BitVec.ofBool s.run).setWidth 32
  | .status => s.statusWord
  | .reg v o => regWord (s.voice v) o
  | .mel v i n => s.melWord v i n
  | .nothing => 0

/-- `RD` (`45_host.md` R178): the word goes to the host; no other effect. -/
def execRd (a : Addr) (s : State) : Result := .next (s.setReadData (hostRead s a))

end Sys2Proof.Machine
end

