-- ==== Sys2Proof/Machine/Melody.lean ====
section
/-! DEFINITION. The melody event (`44_scheduler.md` R146 to R148). -/

namespace Sys2Proof.Machine

/-- `NoteStart(v, fcw, g)` on the voice's registers: the eight writes (`44_scheduler.md` R148). -/
def noteStart (r : VoiceRegs) (fcw : Word) (g : Nat) : VoiceRegs :=
  { r with
    fcw := fcw
    gate := BitVec.ofNat 38 g
    phase := 0
    env := 0
    rdone := false
    lfsr := r.seed
    notes := r.notes + 1
    st := .playing }

/-- The registers after an event whose lookup answers `ans` (`44_scheduler.md` R146): the pointer moves on whatever happens. -/
def eventRegs (r : VoiceRegs) (ans : FtAnswer) (dur : Word) : VoiceRegs :=
  let r1 := { r with ptr := r.ptr + 1 }
  match ans with
  | .miss => r1
  | .hit fcw => if gateLength dur = 0 then r1 else noteStart r1 fcw (gateLength dur)

/-- `NOTE key, dur`, executed by the voice in turn (`44_scheduler.md` R146). -/
def execNote (key : Key) (dur : Word) (s : State) : Result :=
  .next (s.setVoice s.cur (eventRegs (s.voice s.cur) (s.lookup key) dur))

end Sys2Proof.Machine
end

