-- ==== Sys2Proof/Machine/Envelope.lean ====
section
/-! DEFINITION. The envelope ramp generator (`40_envelope.md`). -/

namespace Sys2Proof.Machine

/-- The amplitude numerator `a` that `EnvStep` returns (`40_envelope.md` R100). -/
def envAmplitude (r : VoiceRegs) : Nat :=
  if r.rdone then Config.rampN
  else if Config.rampN ≤ r.env.toNat then Config.rampN
  else r.env.toNat

/-- The registers after `EnvStep` (`40_envelope.md` R100). -/
def envStep (r : VoiceRegs) : VoiceRegs :=
  if r.rdone then r
  else if Config.rampN ≤ r.env.toNat then { r with rdone := true }
  else { r with env := r.env + 1 }

end Sys2Proof.Machine
end

