-- ==== Sys2Proof/Machine/Oscillators.lean ====
section
/-! DEFINITION. The three oscillators (`41_pulse.md`, `42_triangle.md`, `43_noise.md`), the sample path (`44_scheduler.md` R149 to R152),
and the meanings of the per-sample operations that a voice configuration word selects. -/

namespace Sys2Proof.Machine

/-- `PulseWave` (`41_pulse.md` R110). -/
def pulseWave (r : VoiceRegs) : Int := if r.phase < r.duty then Config.wOne else -Config.wOne

/-- `TriWave`, on mathematical integers (`42_triangle.md` R120). -/
def triWave (r : VoiceRegs) : Int :=
  let ramp : Int := (r.phase.extractLsb' 0 31).toNat - Config.wOne
  if r.phase.getLsbD 31 then -ramp else ramp

/-- `XorShift(s)`: three in-place steps (`43_noise.md` R131). -/
def xorShift (s : Word) : Word :=
  let s1 := s ^^^ (s >>> Config.xorShiftA)
  let s2 := s1 ^^^ (s1 <<< Config.xorShiftB)
  s2 ^^^ (s2 >>> Config.xorShiftC)

/-- The noise register steps before its sample (`43_noise.md` R130). -/
def noiseStep (r : VoiceRegs) : VoiceRegs := { r with lfsr := xorShift r.lfsr }

/-- The noise value, from the low bit of the seed after its step (`43_noise.md` R130). -/
def noiseWave (r : VoiceRegs) : Int := if r.lfsr.getLsbD 0 then Config.wOne else -Config.wOne

/-- `PhaseAdvance` (`41_pulse.md` R111): the carry is discarded. -/
def phaseAdvance (r : VoiceRegs) : VoiceRegs := { r with phase := r.phase + r.fcw }

/-- The end of `EmitSample` (`44_scheduler.md` R151): the gate counts down, and at 0 the voice is Idle. -/
def gateStep (r : VoiceRegs) : VoiceRegs :=
  if r.gate - 1 = 0 then { r with gate := 0, st := .idle } else { r with gate := r.gate - 1 }

/-- The port value of an emitted sample (`44_scheduler.md` R150, R151; `10_state.md` R45). -/
def samplePort (r : VoiceRegs) (w : Int) (g : Nat) : SamplePort where
  valid := true
  data := sampleWord (w * envAmplitude r * g)
  first := isFirst r
  last := isLast r

/-- `EmitSample` of the voice in turn (`44_scheduler.md` R151): `r` holds its registers with a noise step already taken, `w` and `g` what
`Mux` gave, `adv` whether the phase advances. -/
def emitSample (r : VoiceRegs) (w : Int) (g : Nat) (adv : Bool) (s : State) : State :=
  (s.setVoice s.cur (gateStep (if adv then phaseAdvance (envStep r) else envStep r))).setPort s.cur (samplePort r w g)

/-- `PULSE` (`41_pulse.md` R110). -/
def execPulse (s : State) : Result :=
  let r := s.voice s.cur
  .next (emitSample r (pulseWave r) Config.lvlFull true s)

/-- `TRIANGLE` (`42_triangle.md` R120). -/
def execTriangle (s : State) : Result :=
  let r := s.voice s.cur
  .next (emitSample r (triWave r) Config.lvlFull true s)

/-- `NOISE` (`43_noise.md` R130, `METAL = 0`). -/
def execNoise (s : State) : Result :=
  let r := noiseStep (s.voice s.cur)
  .next (emitSample r (noiseWave r) Config.lvlFull false s)

/-- `NOISE.M` (`43_noise.md` R130, `METAL = 1`). -/
def execNoiseM (s : State) : Result :=
  let r := noiseStep (s.voice s.cur)
  .next (emitSample r (noiseWave r) Config.lvlMetal false s)

/-- `VCFG.RSVD` (`30_encoding.md` R87): no oscillator; the word, wherever it is written, is dropped with `CFGERR <- 1`
(`45_host.md` R172, R173). Log 9. -/
def execVcfgRsvd (s : State) : Result := .next (dropWrite s)

end Sys2Proof.Machine
end

