-- ==== Sys2Proof/Machine/Dispatch.lean ====
section
/-! DEFINITION. The meaning of each instruction, one arm a constructor. -/

namespace Sys2Proof.Machine

def exec (i : Instr) (s : State) : Host.Outcome State Fault Refusal :=
  match i with
  | .note key dur => Sys2Proof.Machine.execNote key dur s
  | .pulse _ => Sys2Proof.Machine.execPulse s
  | .triangle _ => Sys2Proof.Machine.execTriangle s
  | .noise => Sys2Proof.Machine.execNoise s
  | .noiseM => Sys2Proof.Machine.execNoiseM s
  | .vcfgRsvd _ => Sys2Proof.Machine.execVcfgRsvd s
  | .start => Sys2Proof.Machine.execStart s
  | .ctrlNop => Sys2Proof.Machine.execCtrlNop s
  | .wrVcfg v data => Sys2Proof.Machine.execWrVcfg v data s
  | .wrDuty v data => Sys2Proof.Machine.execWrDuty v data s
  | .wrSeed v data => Sys2Proof.Machine.execWrSeed v data s
  | .wrLen v data => Sys2Proof.Machine.execWrLen v data s
  | .wrKeyLo v k data => Sys2Proof.Machine.execWrKeyLo v k data s
  | .wrKeyHi v k data => Sys2Proof.Machine.execWrKeyHi v k data s
  | .wrDur v k data => Sys2Proof.Machine.execWrDur v k data s
  | .wrBad _ _ => Sys2Proof.Machine.execWrBad s
  | .rd addr => Sys2Proof.Machine.execRd addr s

end Sys2Proof.Machine
end

