-- ==== Sys2Proof/Machine/Tick.lean ====
section
/-! DEFINITION. The tick (`44_scheduler.md` R140, R141, R145): what runs melody events and per-sample operations, one voice after another. -/

namespace Sys2Proof.Machine

/-- The instruction the voice in turn fetches next: the event at its pointer, if it has a value (`44_scheduler.md` R146, `20_memory.md` R62). -/
def fetchEvent (s : State) : Option Instr :=
  (s.melFetch s.cur (eventIndex (s.voice s.cur).ptr)).map fun w => decode (.event w)

/-- The per-sample operation the voice in turn's configuration word selects (`44_scheduler.md` R149, `30_encoding.md` R81). -/
def sampleOp (s : State) : Instr := decode (.vcfg (vcfgToWord (s.voice s.cur).vcfg))

/-- The voice in turn has no event left: Finished (`44_scheduler.md` R145). -/
def finishVoice (s : State) : State := s.setVoice s.cur { s.voice s.cur with st := .finished }

/-- The loop of `Schedule` (`44_scheduler.md` R145) with `n` events left, `n = LEN - PTR`: run events until one starts a note, then stop;
with none left, Finished. The fetch of a never-written event refuses the run (`60_exceptions.md` R204; log 1). -/
def consumeEvents : Nat → State → Result
  | 0, s => .next (finishVoice s)
  | n + 1, s =>
    match fetchEvent s with
    | none => .refused .unwrittenEvent
    | some i =>
      andThen (exec i s) fun s' =>
        if (s'.voice s'.cur).st = .idle then consumeEvents n s' else .next s'

/-- `Schedule` of the voice in turn (`44_scheduler.md` R145). -/
def schedule (s : State) : Result :=
  if (s.voice s.cur).st = .idle then
    consumeEvents ((s.voice s.cur).len.toNat - (s.voice s.cur).ptr.toNat) s
  else .next s

/-- The second half of `VoiceTick` (`44_scheduler.md` R141): a Playing voice emits, every other port shows invalid. -/
def emitOrSilent (s : State) : Result :=
  if (s.voice s.cur).st = .playing then exec (sampleOp s) s else .next (s.setPort s.cur .silent)

/-- `VoiceTick` of the voice in turn (`44_scheduler.md` R141). -/
def voiceTick (s : State) : Result := andThen (schedule s) emitOrSilent

/-- `VoiceTick` of the listed voices, one after another (`44_scheduler.md` R140). -/
def runVoices : List Voice → State → Result
  | [], s => .next s
  | v :: vs, s => andThen (voiceTick (s.setCur v)) (runVoices vs)

/-- `Tick()` (`44_scheduler.md` R140); whose turn it was before is put back, so that a tick leaves no trace in `cur`. -/
def tick (s : State) : Result :=
  if s.run then andThen (runVoices [0, 1, 2, 3, 4] s) fun s' => .next (s'.setCur s.cur)
  else .next s.silence

/-- One input of the environment (`00_scope.md` R5, R13). -/
def runInput (x : Input) (s : State) : Result :=
  match x with
  | .write w => exec (decode (.hostWrite w)) s
  | .read a => exec (decode (.hostRead a)) s
  | .tick => tick s
  | .reset => .next s.applyReset

/-- The next input and what is queued after it; with nothing queued, the sink's next tick (log 4). -/
def nextInput (s : State) : Input × State :=
  match s.pending with
  | [] => (.tick, s)
  | x :: rest => (x, s.setPending rest)

/-- Put voice 0 where its next tick fetches the event `w` (log 11): running, Idle, one more event at its pointer; where the FrequencyTable's
answer to the event's key is not pinned, it is pinned to a hit, so that the step does not rest on the free table. -/
def placeEvent (s : State) (w : BitVec 96) : State :=
  let r := s.voice 0
  let i : EventIndex := eventIndex r.ptr
  let r' := { r with st := .idle, gate := 0, ptr := i.setWidth 11, len := i.setWidth 11 + 1 }
  let key : Key := w.extractLsb' 0 64
  let s1 := ((s.setWord (melAddr 0 i 0) (w.extractLsb' 0 32)).setWord (melAddr 0 i 1) (w.extractLsb' 32 32)).setWord
    (melAddr 0 i 2) (w.extractLsb' 64 32)
  let f := if (pinned s.ft key).isSome then s.ft else (key, .hit 0x10000000) :: s.ft
  (((s1.setVoice 0 r').setRun true).setFt f).setPending (.tick :: s.pending)

/-- Put voice 0 where its next tick runs the per-sample operation of the word `w` (log 11): configured by `w`, running and Playing, with at
least one sample of gate; the reserved word, which no register holds, is queued as the write of it that the hardware decodes. -/
def placeVcfg (s : State) (w : BitVec 32) : State :=
  match vcfgOfWord w with
  | some c =>
    let r := s.voice 0
    let r' := { r with vcfg := c, st := .playing, gate := if r.gate = 0 then 44 else r.gate }
    ((s.setVoice 0 r').setRun true).setPending (.tick :: s.pending)
  | none => s.setPending (.write (writeWord (regAddr 0 0) w) :: s.pending)

/-- Put an encoded operation where the next step takes its instruction from (log 11). -/
def placeEncoded (s : State) (e : Encoded) : State :=
  match e with
  | .event w => placeEvent s w
  | .vcfg w => placeVcfg s w
  | .hostWrite w => s.setPending (.write w :: s.pending)
  | .hostRead a => s.setPending (.read a :: s.pending)

end Sys2Proof.Machine
end

