-- ==== Sys2Proof/Machine/Step.lean ====
section
/-! DEFINITION. The step: one input of the environment, whole (`00_scope.md` R13), and where the host places an instruction for it. -/

namespace Sys2Proof.Machine

/-- One step: the next queued input, or a tick when nothing is queued. -/
def step (s : State) : Host.Outcome State Fault Refusal := runInput (nextInput s).1 (nextInput s).2

/-- The state with the instruction of `nbits` bits `w` placed where the next step runs it; a width of no space changes nothing. -/
def State.withFetchWord (s : State) (nbits w : Nat) : State :=
  match encodedOfBits nbits w with
  | .ok e => placeEncoded s e
  | .error _ => s

end Sys2Proof.Machine
end

