-- ==== Sys2Proof/Safety.lean ====
section
/-! DEFINITION. What claims are stated with: the invariants of `10_state.md` R50, the writes the hardware drops (`45_host.md` R177), what a
state leaves unchanged, an emitted sample, events that play, and runs of ticks. -/

namespace Sys2Proof.Machine

/-- `10_state.md` R50 for one voice, in the phase `run`. -/
abbrev VoiceInv (run : Bool) (r : VoiceRegs) : Prop :=
  r.duty ≠ 0 ∧ r.seed ≠ 0 ∧ r.lfsr ≠ 0 ∧ r.len.toNat ≤ 1024 ∧ r.ptr.toNat ≤ r.len.toNat ∧ (run = false → r.ptr = 0) ∧
    r.env.toNat ≤ 882 ∧ (r.rdone = true → r.env.toNat = 882) ∧ (r.gate ≠ 0 ↔ r.st = .playing) ∧
    (r.st = .finished → r.ptr = r.len) ∧ (run = false → r.st = .idle ∧ r.notes = 0)

/-- The invariant of every reachable state (`10_state.md` R50; `KIND` and `ST` have no fourth value in the model). -/
abbrev Inv (s : State) : Prop := ∀ v : Voice, VoiceInv s.run (s.voice v)

/-- The host writes that set `CFGERR` (`45_host.md` R177, complete). -/
def dropsWrite (s : State) : Instr → Bool
  | .start => s.run
  | .wrVcfg _ d => s.run || d.extractLsb' 0 2 == 3
  | .wrDuty _ d | .wrSeed _ d => s.run || d == 0
  | .wrLen _ d => s.run || decide (1024 < d.toNat)
  | .wrKeyLo _ _ _ | .wrKeyHi _ _ _ | .wrDur _ _ _ => s.run
  | .wrBad _ _ | .vcfgRsvd _ => true
  | .note _ _ | .pulse _ | .triangle _ | .noise | .noiseM | .ctrlNop | .rd _ => false

/-- A cell of melody memory reads as before, and has a value if and only if it had one. -/
abbrev KeepsCell (s t : State) (a : Nat) : Prop := t.byte a = s.byte a ∧ memRead? t.mel a = memRead? s.mel a

/-- The melody word at host word address `a` reads as before, and has a value if and only if it had one. -/
abbrev KeepsWord (s t : State) (a : Nat) : Prop := t.word a = s.word a ∧ t.wordWritten a = s.wordWritten a

/-- Every cell of melody memory is as before. -/
abbrev KeepsMemory (s t : State) : Prop := ∀ a, KeepsCell s t a

/-- Every register of every voice is as before. -/
abbrev KeepsVoices (s t : State) : Prop := ∀ v, t.voice v = s.voice v

/-- Every register of every voice but `v` is as before. -/
abbrev KeepsOtherVoices (v : Voice) (s t : State) : Prop := ∀ u, u ≠ v → t.voice u = s.voice u

/-- `RUN` and `CFGERR` are as before. -/
abbrev KeepsGlobals (s t : State) : Prop := t.run = s.run ∧ t.cfgerr = s.cfgerr

/-- The sample ports and the word of the latest read are as before. -/
abbrev KeepsOutputs (s t : State) : Prop := (∀ v, t.port v = s.port v) ∧ t.readData = s.readData

/-- The environment's data and whose turn it is are as before. -/
abbrev KeepsEnvironment (s t : State) : Prop := t.ft = s.ft ∧ t.pending = s.pending ∧ t.cur = s.cur

/-- Nothing but `CFGERR`, which is 1. -/
abbrev OnlySetsCfgerr (s t : State) : Prop :=
  t.cfgerr = true ∧ t.run = s.run ∧ KeepsVoices s t ∧ KeepsMemory s t ∧ KeepsOutputs s t ∧ KeepsEnvironment s t

/-- Nothing but registers of voice `v`. -/
abbrev OnlyWritesVoice (v : Voice) (s t : State) : Prop :=
  KeepsGlobals s t ∧ KeepsOtherVoices v s t ∧ KeepsMemory s t ∧ KeepsOutputs s t ∧ KeepsEnvironment s t

/-- Nothing but registers and the sample port of voice `v`. -/
abbrev OnlyStepsVoice (v : Voice) (s t : State) : Prop :=
  KeepsGlobals s t ∧ KeepsOtherVoices v s t ∧ KeepsMemory s t ∧ (∀ u, u ≠ v → t.port u = s.port u) ∧ t.readData = s.readData ∧
    KeepsEnvironment s t

/-- The registers a sample never writes (`44_scheduler.md` R151): all but `ST`, `GATE`, `PHASE`, `ENV`, `RDONE`, `LFSR`. -/
abbrev KeepsNote (q r : VoiceRegs) : Prop :=
  q.vcfg = r.vcfg ∧ q.duty = r.duty ∧ q.seed = r.seed ∧ q.len = r.len ∧ q.ptr = r.ptr ∧ q.notes = r.notes ∧ q.fcw = r.fcw

/-- `t` is `s` after the voice in turn has emitted one sample of waveform value `w` at level `g` (`44_scheduler.md` R150, R151, `40_envelope.md`
R100): the port, the envelope, the gate and the scheduler state; `PHASE` and `LFSR` are the oscillator's own matter. -/
abbrev EmitsSample (s t : State) (w : Int) (g : Int) : Prop :=
  let r := s.voice s.cur
  let q := t.voice s.cur
  t.port s.cur = { valid := true
                   data := BitVec.ofInt 44 (w * (if r.rdone = true ∨ 882 ≤ r.env.toNat then 882 else r.env.toNat : Nat) * g)
                   first := decide (r.env = 0 ∧ r.rdone = false)
                   last := decide (r.gate = 1) } ∧
    q.env = (if r.rdone = true ∨ 882 ≤ r.env.toNat then r.env else r.env + 1) ∧
    q.rdone = (r.rdone || decide (882 ≤ r.env.toNat)) ∧
    q.gate = r.gate - 1 ∧
    q.st = (if r.gate = 1 then .idle else r.st) ∧
    KeepsNote q r ∧ OnlyStepsVoice s.cur s t

/-- `t` is `s` after the voice in turn, a Noise voice, has emitted one sample at level `g` (`43_noise.md` R130, R131): the register steps first, its low
bit then gives the sign; the phase stays. -/
abbrev EmitsNoise (s t : State) (g : Int) : Prop :=
  let s0 := (s.voice s.cur).lfsr
  let s1 := s0 ^^^ (s0 >>> 7)
  let s2 := s1 ^^^ (s1 <<< 9)
  (t.voice s.cur).lfsr = s2 ^^^ (s2 >>> 13) ∧ (t.voice s.cur).phase = (s.voice s.cur).phase ∧
    EmitsSample s t (if (t.voice s.cur).lfsr.getLsbD 0 then 1073741824 else -1073741824) g

/-- `t` is `s` after an accepted write of `d` to word `n` of event `k` of voice `v` (`45_host.md` R175): that word has a value and reads as `d`, every cell outside its
four is as before, nothing else changes. -/
abbrev StoresMelodyWord (s t : State) (v : Voice) (k : EventIndex) (n : Nat) (d : Word) : Prop :=
  t.melWord v k n = d ∧ t.wordWritten (melAddr v k n) = true ∧ (∀ a, a / 4 ≠ melAddr v k n → KeepsCell s t a) ∧
    KeepsGlobals s t ∧ KeepsVoices s t ∧ KeepsOutputs s t ∧ KeepsEnvironment s t

/-- Writing `d` at host address `a` and then reading that address, in two steps, hands the host the word `r` (`70_reset_and_hazards.md` R224). -/
abbrev WriteThenReads (s : State) (a : Nat) (d r : Word) : Prop :=
  ∀ rest : List Input, s.pending = .write (BitVec.ofNat 16 a ++ d) :: .read (BitVec.ofNat 16 a) :: rest →
    ∃ t u, step s = .next t ∧ step t = .next u ∧ u.readData = some r ∧ u.pending = rest

/-- The instruction is a dropped write: it completes and sets `CFGERR` only. -/
abbrev IsDropped (i : Instr) (s : State) : Prop := ∃ t, exec i s = .next t ∧ OnlySetsCfgerr s t

/-- The key of event `i` of voice `v`'s melody (`20_memory.md` R62). -/
def State.eventKey (s : State) (v : Voice) (i : Nat) : Key :=
  s.melWord v (BitVec.ofNat 10 i) 1 ++ s.melWord v (BitVec.ofNat 10 i) 0

/-- The duration of event `i` of voice `v`'s melody (`20_memory.md` R62). -/
def State.eventDur (s : State) (v : Voice) (i : Nat) : Word := s.melWord v (BitVec.ofNat 10 i) 2

/-- Event `i` of voice `v` is skipped: its key misses or its duration is 0 (`44_scheduler.md` R146). -/
abbrev Skipped (s : State) (v : Voice) (i : Nat) : Prop := s.lookup (s.eventKey v i) = .miss ∨ s.eventDur v i = 0

/-- The host has kept its duty: every event from each voice's pointer up to its `LEN` is written (`70_reset_and_hazards.md` R223, step 2). -/
abbrev Loaded (s : State) : Prop :=
  ∀ (v : Voice) (i : Nat), i < (s.voice v).len.toNat → (s.voice v).ptr.toNat ≤ i → s.eventWritten v (BitVec.ofNat 10 i) = true

/-- The next tick of the Idle voice `v` fetches event `i`, which was never written: every event before it is written and skipped. -/
abbrev FetchesUnwritten (s : State) (v : Voice) (i : Nat) : Prop :=
  (s.voice v).st = .idle ∧ (s.voice v).ptr.toNat ≤ i ∧ i < (s.voice v).len.toNat ∧ s.eventWritten v (BitVec.ofNat 10 i) = false ∧
    ∀ m, m < i → (s.voice v).ptr.toNat ≤ m → s.eventWritten v (BitVec.ofNat 10 m) = true ∧ Skipped s v m

/-- The samples that event `i` of voice `v` takes: none if it is skipped (`44_scheduler.md` R146, R147). -/
def State.eventSamples (s : State) (v : Voice) (i : Nat) : Nat :=
  match s.lookup (s.eventKey v i) with
  | .miss => 0
  | .hit _ => (s.eventDur v i).toNat * 441 / 10

/-- The samples voice `v` has still to play when Idle: the sum over the events from its pointer on (`44_scheduler.md` R154). -/
def State.samplesLeft (s : State) (v : Voice) : Nat :=
  ∑ i ∈ Finset.Ico (s.voice v).ptr.toNat (s.voice v).len.toNat, s.eventSamples v i

/-- The waveform value of sample `k` of a note of the given registers (`41_pulse.md` R110, R111; `42_triangle.md` R120; `43_noise.md` R130). -/
def noteWave (r : VoiceRegs) (k : Nat) : Int :=
  let p := k * r.fcw.toNat % 4294967296
  match r.vcfg.kind with
  | .pulse => if p < r.duty.toNat then 1073741824 else -1073741824
  | .triangle => if p < 2147483648 then (p : Int) - 1073741824 else 3221225472 - (p : Int)
  | .noise => if (xorShift^[k + 1] r.seed).getLsbD 0 then 1073741824 else -1073741824

/-- The level numerator of a voice (`44_scheduler.md` R149, `43_noise.md` R130). -/
def noteLevel (c : Vcfg) : Int := if c.kind = .noise ∧ c.metal = true then 4 else 5

/-- The machine after `n` ticks in a row. -/
def ticks : Nat → State → Result
  | 0, s => .next s
  | n + 1, s => andThen (ticks n s) tick

end Sys2Proof.Machine
end

