-- ==== Sys2Proof/Certificates/Slice0/Obligations.lean ====
section
/-! DEFINITION. The statements for the provers. Each docstring names the rule of spec/ it formalises, or says what of it is the model's choice. -/

open Sys2Proof Sys2Proof.Machine

/-! ## Encodings -/

/-- Decode and encode agree on every well-formed instruction (`30_encoding.md` R80, R81, R84, R86). -/
def Obligations.DecodeEncodeRoundTrip : Prop :=
  ∀ i : Instr, i.wellFormed = true → decode (encode i) = i

/-- Everything the decoder reads is well-formed: `WR.BAD` is read only from an address no earlier row takes (`30_encoding.md` R86). -/
def Obligations.DecodedIsWellFormed : Prop :=
  ∀ e : Encoded, (decode e).wellFormed = true

/-- Encoding what was decoded gives the same bits back but for those the spec ignores: `VCFG[31:3]` (R81), `data[31:1]` of a `CTRL` write (`10_state.md` R41);
that the encoder writes those as 0 is the model's choice, log 13. -/
def Obligations.EncodeDecodeKeepsBits : Prop :=
  (∀ w : BitVec 96, encode (decode (.event w)) = .event w) ∧
  (∀ a : BitVec 16, encode (decode (.hostRead a)) = .hostRead a) ∧
  (∀ w : BitVec 32, encode (decode (.vcfg w)) = .vcfg (w &&& 7)) ∧
  (∀ (a : Addr) (d : Word), encode (decode (.hostWrite (a ++ d))) = .hostWrite (a ++ if a = 0 then d &&& 1 else d))

/-- The host write decode, every row of `30_encoding.md` R86, in the addresses the rule writes. -/
def Obligations.HostWriteDecodeRows : Prop :=
  (∀ d : Word, decode (.hostWrite (0x0000#16 ++ d)) = if d.getLsbD 0 then .start else .ctrlNop) ∧
  (∀ (v : Voice) (d : Word), decode (.hostWrite (BitVec.ofNat 16 (0x0100 * (v.val + 1) + 0) ++ d)) = .wrVcfg v d) ∧
  (∀ (v : Voice) (d : Word), decode (.hostWrite (BitVec.ofNat 16 (0x0100 * (v.val + 1) + 1) ++ d)) = .wrDuty v d) ∧
  (∀ (v : Voice) (d : Word), decode (.hostWrite (BitVec.ofNat 16 (0x0100 * (v.val + 1) + 2) ++ d)) = .wrSeed v d) ∧
  (∀ (v : Voice) (d : Word), decode (.hostWrite (BitVec.ofNat 16 (0x0100 * (v.val + 1) + 3) ++ d)) = .wrLen v d) ∧
  (∀ (v : Voice) (i : EventIndex) (d : Word),
    decode (.hostWrite (BitVec.ofNat 16 (0x1000 * (v.val + 1) + 4 * i.toNat + 0) ++ d)) = .wrKeyLo v i d) ∧
  (∀ (v : Voice) (i : EventIndex) (d : Word),
    decode (.hostWrite (BitVec.ofNat 16 (0x1000 * (v.val + 1) + 4 * i.toNat + 1) ++ d)) = .wrKeyHi v i d) ∧
  (∀ (v : Voice) (i : EventIndex) (d : Word),
    decode (.hostWrite (BitVec.ofNat 16 (0x1000 * (v.val + 1) + 4 * i.toNat + 2) ++ d)) = .wrDur v i d) ∧
  (∀ (a : Addr) (d : Word), a ≠ 0 →
    (∀ (v : Voice) (o : Nat), o ≤ 3 → a.toNat ≠ 0x0100 * (v.val + 1) + o) →
    (∀ (v : Voice) (i : EventIndex) (n : Nat), n ≤ 2 → a.toNat ≠ 0x1000 * (v.val + 1) + 4 * i.toNat + n) →
    decode (.hostWrite (a ++ d)) = .wrBad a d)

/-- The operation each voice configuration word selects (`30_encoding.md` R81). -/
def Obligations.VcfgWordSelectsOperation : Prop :=
  ∀ w : BitVec 32,
    decode (.vcfg w) =
      if w.extractLsb' 0 2 = 0 then .pulse (w.getLsbD 2)
      else if w.extractLsb' 0 2 = 1 then .triangle (w.getLsbD 2)
      else if w.extractLsb' 0 2 = 3 then .vcfgRsvd (w.getLsbD 2)
      else if w.getLsbD 2 then .noiseM else .noise

/-- Words written out in the spec decode to what they stand for: every event word and every host word of program P1 of `95_test_vectors.md`, the
example of `45_host.md` R174, and the configuration word and the read address of `45_host.md` R174's and R178's examples. -/
def Obligations.SpecWordsDecode : Prop :=
  decodeTableWord 96 0x00000064_00000000_00003441 = some (.note 0x3441 100) ∧
  decodeTableWord 96 0x00000032_004E574F_4E4B4E55 = some (.note 0x004E574F4E4B4E55 50) ∧
  decodeTableWord 96 0x000000C8_00000000_00003443 = some (.note 0x3443 200) ∧
  decodeTableWord 48 0x1000_00003441 = some (.wrKeyLo 0 0 0x3441) ∧
  decodeTableWord 48 0x1001_00000000 = some (.wrKeyHi 0 0 0) ∧
  decodeTableWord 48 0x1002_00000064 = some (.wrDur 0 0 100) ∧
  decodeTableWord 48 0x1004_4E4B4E55 = some (.wrKeyLo 0 1 0x4E4B4E55) ∧
  decodeTableWord 48 0x1005_004E574F = some (.wrKeyHi 0 1 0x004E574F) ∧
  decodeTableWord 48 0x1006_00000032 = some (.wrDur 0 1 50) ∧
  decodeTableWord 48 0x1008_00003443 = some (.wrKeyLo 0 2 0x3443) ∧
  decodeTableWord 48 0x1009_00000000 = some (.wrKeyHi 0 2 0) ∧
  decodeTableWord 48 0x100A_000000C8 = some (.wrDur 0 2 200) ∧
  decodeTableWord 48 0x0103_00000003 = some (.wrLen 0 3) ∧
  decodeTableWord 48 0x0000_00000001 = some .start ∧
  decodeTableWord 48 0x0500_00000006 = some (.wrVcfg 4 6) ∧
  decodeTableWord 32 0x00000006 = some .noiseM ∧
  decodeTableWord 16 0x0105 = some (.rd 0x0105)

/-! ## The step -/

/-- A queued host operation is decoded and executed, whole, in one step (`00_scope.md` R13, `45_host.md` R171, R178; the queue is log 4). -/
def Obligations.StepRunsHostOperation : Prop :=
  (∀ (s : State) (w : BitVec 48) (rest : List Input), s.pending = .write w :: rest →
    step s = exec (decode (.hostWrite w)) (s.setPending rest)) ∧
  (∀ (s : State) (a : BitVec 16) (rest : List Input), s.pending = .read a :: rest →
    step s = exec (decode (.hostRead a)) (s.setPending rest))

/-- A queued tick, or an empty queue, is one tick (`10_state.md` R46; that nothing queued means a tick is log 4). -/
def Obligations.StepTakesTick : Prop :=
  (∀ (s : State) (rest : List Input), s.pending = .tick :: rest → step s = tick (s.setPending rest)) ∧
  (∀ s : State, s.pending = [] → step s = tick s)

/-- `Schedule`'s loop, as `44_scheduler.md` R145 writes it: the event it executes is decoded from melody memory at the pointer, 96 bits that
`20_memory.md` R62 puts together; where one of its words was never written the run is refused (`60_exceptions.md` R204; log 1). -/
def Obligations.ScheduleRunsDecodedEvents : Prop :=
  (∀ (s : State) (v : Voice) (i : EventIndex),
    s.melFetch v i =
      if s.wordWritten (melAddr v i 0) ∧ s.wordWritten (melAddr v i 1) ∧ s.wordWritten (melAddr v i 2) then
        some (s.melWord v i 2 ++ s.melWord v i 1 ++ s.melWord v i 0)
      else none) ∧
  ∀ s : State,
    schedule s =
      if (s.voice s.cur).st = .idle then
        if (s.voice s.cur).len ≤ (s.voice s.cur).ptr then
          .next (s.setVoice s.cur { s.voice s.cur with st := .finished })
        else
          match s.melFetch s.cur ((s.voice s.cur).ptr.setWidth 10) with
          | none => .refused .unwrittenEvent
          | some w => andThen (exec (decode (.event w)) s) schedule
      else .next s

/-- `VoiceTick` schedules, then a Playing voice runs the operation decoded from its `VCFG` word and every other voice's port shows invalid
(`44_scheduler.md` R141, R149). -/
def Obligations.VoiceTickRunsDecodedOperation : Prop :=
  ∀ s s1 : State, schedule s = .next s1 →
    voiceTick s =
      if (s1.voice s1.cur).st = .playing then exec (decode (.vcfg (vcfgToWord (s1.voice s1.cur).vcfg))) s1
      else .next (s1.setPort s1.cur .silent)

/-- Any serial order of the five voices' turns gives the tick (`44_scheduler.md` R140, `60_exceptions.md` R201). -/
def Obligations.VoiceOrderDoesNotMatter : Prop :=
  ∀ (vs : List Voice) (s : State), vs.Perm [0, 1, 2, 3, 4] → s.run = true →
    andThen (runVoices vs s) (fun t => .next (t.setCur s.cur)) = tick s

/-- No step faults (`60_exceptions.md` R190), and a step is refused exactly if it is a tick of a running machine in which some Idle voice comes, after
events that are written and skipped, to one that was never written (`60_exceptions.md` R204, `70_reset_and_hazards.md` R226); in a machine whose host has
written its events (`70_reset_and_hazards.md` R223) a tick completes and leaves such a machine. That the refusal takes the whole tick is log 1, that an
empty queue is a tick log 4. -/
def Obligations.StepRefusesOnlyUnwrittenFetch : Prop :=
  (∀ s : State, (∃ t, step s = .next t) ∨ step s = .refused .unwrittenEvent) ∧
  (∀ s : State, step s = .refused .unwrittenEvent ↔
    (s.pending = [] ∨ ∃ rest, s.pending = .tick :: rest) ∧ s.run = true ∧ ∃ (v : Voice) (i : Nat), FetchesUnwritten s v i) ∧
  (∀ s : State, Loaded s → ∃ t, tick s = .next t ∧ Loaded t)

/-! ## Reset -/

/-- The state right after reset, register by register, and reset changes no melody word (`10_state.md` R49). That `State.reset` lists no melody cell,
which makes it the power-on state too, is the model's inference, log 16. -/
def Obligations.ResetValues : Prop :=
  State.reset.run = false ∧ State.reset.cfgerr = false ∧
  (State.reset.voice 0).vcfg = { kind := .pulse, metal := false } ∧ (State.reset.voice 1).vcfg = { kind := .pulse, metal := false } ∧
  (State.reset.voice 2).vcfg = { kind := .pulse, metal := false } ∧ (State.reset.voice 3).vcfg = { kind := .triangle, metal := false } ∧
  (State.reset.voice 4).vcfg = { kind := .noise, metal := false } ∧
  (State.reset.voice 0).duty = 0x20000000 ∧ (State.reset.voice 1).duty = 0x40000000 ∧
  (∀ v : Voice, 2 ≤ v.val → (State.reset.voice v).duty = 0x80000000) ∧
  (∀ v : Voice, (State.reset.voice v).seed = 0x00000001 ∧ (State.reset.voice v).len = 0 ∧ (State.reset.voice v).ptr = 0 ∧
    (State.reset.voice v).st = .idle ∧ (State.reset.voice v).notes = 0 ∧ (State.reset.voice v).gate = 0 ∧
    (State.reset.voice v).fcw = 0 ∧ (State.reset.voice v).phase = 0 ∧ (State.reset.voice v).env = 0 ∧
    (State.reset.voice v).rdone = false ∧ (State.reset.voice v).lfsr = 0x00000001 ∧
    State.reset.port v = { valid := false, data := 0, first := false, last := false }) ∧
  State.reset.allDone = false ∧
  (∀ a, memRead? State.reset.mel a = none) ∧ ∀ s : State, s.applyReset.mel = s.mel

/-- The reset input, from any state: every register and port at its reset value, melody memory kept (`70_reset_and_hazards.md` R220, R221); that the
environment's data and the latest read's word stay is the model's choice, logs 7 and 12. -/
def Obligations.ResetInputForcesResetState : Prop :=
  ∀ (s : State) (rest : List Input), s.pending = .reset :: rest →
    ∃ t, step s = .next t ∧ t.run = false ∧ t.cfgerr = false ∧ t.allDone = false ∧
      (∀ v, t.voice v = State.reset.voice v ∧ t.port v = .silent) ∧
      KeepsMemory s t ∧ t.ft = s.ft ∧ t.pending = rest ∧ t.readData = s.readData

/-- The reset state meets both invariants (`10_state.md` R49, R50; the canonical memory is the model's). -/
def Obligations.ResetMeetsInvariants : Prop :=
  Inv State.reset ∧ State.reset.mel.wf = true

/-! ## Host operations -/

/-- A write to `CTRL` (`45_host.md` R170, `10_state.md` R41): with bit 0 = 1 it is `START`, which sets `RUN` and nothing else, and while running is
dropped with `CFGERR`; with bit 0 = 0 it changes nothing, in either phase. -/
def Obligations.CtrlWriteStartsOrDoesNothing : Prop :=
  ∀ (s : State) (d : Word),
    (d.getLsbD 0 = true →
      decode (.hostWrite (0x0000#16 ++ d)) = .start ∧
      (s.run = false →
        ∃ t, exec .start s = .next t ∧ t.run = true ∧ t.cfgerr = s.cfgerr ∧ KeepsVoices s t ∧ KeepsMemory s t ∧ KeepsOutputs s t ∧
          KeepsEnvironment s t) ∧
      (s.run = true → IsDropped .start s)) ∧
    (d.getLsbD 0 = false → decode (.hostWrite (0x0000#16 ++ d)) = .ctrlNop ∧ exec .ctrlNop s = .next s)

/-- An accepted `WR.VCFG` writes `KIND` and `METAL` together and nothing else (`45_host.md` R174). -/
def Obligations.VcfgWriteAccepted : Prop :=
  ∀ (s : State) (v : Voice) (d : Word), s.run = false → d.extractLsb' 0 2 ≠ 3 →
    ∃ t k, exec (.wrVcfg v d) s = .next t ∧ kindBits k = d.extractLsb' 0 2 ∧
      t.voice v = { s.voice v with vcfg := { kind := k, metal := d.getLsbD 2 } } ∧ OnlyWritesVoice v s t

/-- Accepted `WR.DUTY`, `WR.SEED` and `WR.LEN` write their register and nothing else; in particular `LFSR[v]` is not touched (`45_host.md` R174). -/
def Obligations.ParameterWritesAccepted : Prop :=
  (∀ (s : State) (v : Voice) (d : Word), s.run = false → d ≠ 0 →
    ∃ t, exec (.wrDuty v d) s = .next t ∧ t.voice v = { s.voice v with duty := d } ∧ OnlyWritesVoice v s t) ∧
  (∀ (s : State) (v : Voice) (d : Word), s.run = false → d ≠ 0 →
    ∃ t, exec (.wrSeed v d) s = .next t ∧ t.voice v = { s.voice v with seed := d } ∧ OnlyWritesVoice v s t) ∧
  (∀ (s : State) (v : Voice) (d : Word), s.run = false → d.toNat ≤ 1024 →
    ∃ t, exec (.wrLen v d) s = .next t ∧ (t.voice v).len.toNat = d.toNat ∧
      t.voice v = { s.voice v with len := (t.voice v).len } ∧ OnlyWritesVoice v s t)

/-- A melody write stores its word: that word reads as the data, every byte outside its four cells as before, and nothing else changes
(`45_host.md` R175, `20_memory.md` R65). -/
def Obligations.MelodyWritesStore : Prop :=
  ∀ (s : State) (v : Voice) (k : EventIndex) (d : Word), s.run = false →
    (∃ t, exec (.wrKeyLo v k d) s = .next t ∧ StoresMelodyWord s t v k 0 d) ∧
    (∃ t, exec (.wrKeyHi v k d) s = .next t ∧ StoresMelodyWord s t v k 1 d) ∧
    (∃ t, exec (.wrDur v k d) s = .next t ∧ StoresMelodyWord s t v k 2 d)

/-- A melody write leaves every other melody word, of every voice, as it was (`45_host.md` R175, `20_memory.md` R61). -/
def Obligations.MelodyWritesLeaveOtherWords : Prop :=
  ∀ (s t : State) (v u : Voice) (k j : EventIndex) (n : Nat) (d : Word), n ≤ 2 →
    (exec (.wrKeyLo v k d) s = .next t → (u, j, n) ≠ (v, k, 0) → KeepsWord s t (melAddr u j n)) ∧
    (exec (.wrKeyHi v k d) s = .next t → (u, j, n) ≠ (v, k, 1) → KeepsWord s t (melAddr u j n)) ∧
    (exec (.wrDur v k d) s = .next t → (u, j, n) ≠ (v, k, 2) → KeepsWord s t (melAddr u j n))

/-- The phase lock: while `RUN = 1` every configuration and melody write is dropped and sets `CFGERR`, whatever its data (`45_host.md` R172). -/
def Obligations.PhaseLockDropsWrites : Prop :=
  ∀ (s : State) (v : Voice) (k : EventIndex) (d : Word), s.run = true →
    IsDropped (.wrVcfg v d) s ∧ IsDropped (.wrDuty v d) s ∧ IsDropped (.wrSeed v d) s ∧ IsDropped (.wrLen v d) s ∧
    IsDropped (.wrKeyLo v k d) s ∧ IsDropped (.wrKeyHi v k d) s ∧ IsDropped (.wrDur v k d) s

/-- The value filter: an illegal value is dropped and sets `CFGERR`, in either phase (`45_host.md` R173, `60_exceptions.md` R194 (b)). -/
def Obligations.ValueFilterDropsWrites : Prop :=
  ∀ (s : State) (v : Voice) (d : Word),
    (d.extractLsb' 0 2 = 3 → IsDropped (.wrVcfg v d) s) ∧
    (d = 0 → IsDropped (.wrDuty v d) s) ∧
    (d = 0 → IsDropped (.wrSeed v d) s) ∧
    (1024 < d.toNat → IsDropped (.wrLen v d) s)

/-- A write to any address but `CTRL`, a writable register or a melody word is `WR.BAD`, which changes nothing but `CFGERR <- 1`, in either phase
(`45_host.md` R176). -/
def Obligations.BadWriteOnlySetsCfgerr : Prop :=
  ∀ (s : State) (a : Addr) (d : Word), IsDropped (.wrBad a d) s ∧
    (a ≠ 0 →
      (∀ (v : Voice) (o : Nat), o ≤ 3 → a.toNat ≠ 0x0100 * (v.val + 1) + o) →
      (∀ (v : Voice) (i : EventIndex) (n : Nat), n ≤ 2 → a.toNat ≠ 0x1000 * (v.val + 1) + 4 * i.toNat + n) →
      IsDropped (decode (.hostWrite (a ++ d))) s)

/-- The reserved configuration word: its row of the table decodes to `VCFG.RSVD`, and what the hardware does with it, wherever it is written, is to
drop the write with `CFGERR <- 1` (`30_encoding.md` R87). That this is the meaning of the row as an instruction is the model's choice, log 9. -/
def Obligations.ReservedVcfgWordIsDropped : Prop :=
  ∀ (s : State) (m : Bool) (v : Voice) (d : Word), d.extractLsb' 0 2 = 3 →
    decode (.vcfg d) = .vcfgRsvd (d.getLsbD 2) ∧ IsDropped (.vcfgRsvd m) s ∧
      exec (.wrVcfg v d) s = exec (.vcfgRsvd m) s

/-- Every cause of `CFGERR`: an instruction leaves it 1 exactly if it was 1 or the instruction is a dropped write (`45_host.md` R177;
the reserved configuration word among them by log 9); a tick leaves it. -/
def Obligations.CfgerrHasOnlyListedCauses : Prop :=
  (∀ (i : Instr) (s t : State), exec i s = .next t → t.cfgerr = (s.cfgerr || dropsWrite s i)) ∧
  (∀ s t : State, tick s = .next t → t.cfgerr = s.cfgerr)

/-- `RD` returns the word of `45_host.md` R178's table and has no other effect, in either phase; the `VCFG` word bit by bit, `KIND` in bits 1:0, `METAL`
in bit 2, the rest 0. Three things are the model's choices: that `RDONE` is readable in the `VSTAT` word, against `00_scope.md` R14 (log 17); that a
never-written melody word reads as a free value, the same at every read (logs 1 and 2); and that the returned word is kept in `readData` (log 7). -/
def Obligations.ReadReturnsTable : Prop :=
  (∀ (s : State) (a : Addr), ∃ t d, exec (.rd a) s = .next t ∧ t.readData = some d ∧
    KeepsGlobals s t ∧ KeepsVoices s t ∧ KeepsMemory s t ∧ (∀ v, t.port v = s.port v) ∧ KeepsEnvironment s t ∧
    (a = 0x0000 → d = BitVec.ofNat 32 s.run.toNat) ∧
    (a = 0x0001 → d = s.statusWord) ∧
    (∀ v : Voice, a.toNat = 0x0100 * (v.val + 1) + 0 → d = vcfgToWord (s.voice v).vcfg ∧
      d.extractLsb' 0 2 = (match (s.voice v).vcfg.kind with | .pulse => 0 | .triangle => 1 | .noise => 2) ∧
      d.getLsbD 2 = (s.voice v).vcfg.metal ∧ ∀ b : Nat, 3 ≤ b → d.getLsbD b = false) ∧
    (∀ v : Voice, a.toNat = 0x0100 * (v.val + 1) + 1 → d = (s.voice v).duty) ∧
    (∀ v : Voice, a.toNat = 0x0100 * (v.val + 1) + 2 → d = (s.voice v).seed) ∧
    (∀ v : Voice, a.toNat = 0x0100 * (v.val + 1) + 3 → d.toNat = (s.voice v).len.toNat) ∧
    (∀ v : Voice, a.toNat = 0x0100 * (v.val + 1) + 4 → d.toNat = (s.voice v).ptr.toNat) ∧
    (∀ v : Voice, a.toNat = 0x0100 * (v.val + 1) + 5 → d = (s.voice v).notes) ∧
    (∀ v : Voice, a.toNat = 0x0100 * (v.val + 1) + 6 → d = vstatWord (s.voice v)) ∧
    (∀ (v : Voice) (k : EventIndex) (n : Nat), n ≤ 2 → a.toNat = 0x1000 * (v.val + 1) + 4 * k.toNat + n → d = s.melWord v k n) ∧
    (1 < a.toNat → (∀ (v : Voice) (o : Nat), o ≤ 6 → a.toNat ≠ 0x0100 * (v.val + 1) + o) →
      (∀ (v : Voice) (k : EventIndex) (n : Nat), n ≤ 2 → a.toNat ≠ 0x1000 * (v.val + 1) + 4 * k.toNat + n) → d = 0))

/-- The fields of `STATUS` and `VSTAT`, bit by bit (`10_state.md` R42, R43; that `RDONE` is readable against `00_scope.md` R14 is log 17). -/
def Obligations.StatusFields : Prop :=
  ∀ s : State,
    (∀ v : Voice, s.statusWord.getLsbD v.val = decide ((s.voice v).st = .finished)) ∧
    (∀ v : Voice, s.statusWord.getLsbD (8 + v.val) = decide ((s.voice v).st = .playing)) ∧
    s.statusWord.getLsbD 16 = decide (∀ v : Voice, (s.voice v).st = .finished) ∧
    s.statusWord.getLsbD 17 = s.run ∧ s.statusWord.getLsbD 18 = s.cfgerr ∧
    (∀ b : Nat, 5 ≤ b ∧ b ≤ 7 ∨ 13 ≤ b ∧ b ≤ 15 ∨ 19 ≤ b → s.statusWord.getLsbD b = false) ∧
    (∀ v : Voice, (vstatWord (s.voice v)).getLsbD 2 = (s.voice v).rdone ∧
      (vstatWord (s.voice v)).extractLsb' 0 2 = (match (s.voice v).st with | .idle => 0 | .playing => 1 | .finished => 2) ∧
      (∀ b : Nat, 3 ≤ b → (vstatWord (s.voice v)).getLsbD b = false))

/-- A read straight after an accepted write returns the new value: every datum at every melody word, and every legal datum at each of the four
writable registers; of a `VCFG` word its three bits (`70_reset_and_hazards.md` R224, `45_host.md` R173, R174, R175, R178). -/
def Obligations.ReadAfterWriteReturnsData : Prop :=
  ∀ (s : State) (v : Voice) (d : Word), s.run = false →
    (∀ (k : EventIndex) (n : Nat), n ≤ 2 → WriteThenReads s (melAddr v k n) d d) ∧
    (d.extractLsb' 0 2 ≠ 3 → WriteThenReads s (regAddr v 0) d (d &&& 7)) ∧
    (d ≠ 0 → WriteThenReads s (regAddr v 1) d d ∧ WriteThenReads s (regAddr v 2) d d) ∧
    (d.toNat ≤ 1024 → WriteThenReads s (regAddr v 3) d d)

/-! ## The melody event -/

/-- An event whose key hits and whose duration is not 0 starts a note: the pointer moves on, the eight writes of `44_scheduler.md` R148 happen with the
exact gate length of R147, and nothing else changes (R146). -/
def Obligations.NoteStartsOnHit : Prop :=
  ∀ (s : State) (key : Key) (dur fcw : Word), s.lookup key = .hit fcw → dur ≠ 0 →
    ∃ t, exec (.note key dur) s = .next t ∧
      (t.voice s.cur).ptr = (s.voice s.cur).ptr + 1 ∧
      (t.voice s.cur).fcw = fcw ∧ (t.voice s.cur).gate.toNat = dur.toNat * 441 / 10 ∧ (t.voice s.cur).phase = 0 ∧
      (t.voice s.cur).env = 0 ∧ (t.voice s.cur).rdone = false ∧ (t.voice s.cur).lfsr = (s.voice s.cur).seed ∧
      (t.voice s.cur).notes = (s.voice s.cur).notes + 1 ∧ (t.voice s.cur).st = .playing ∧
      (t.voice s.cur).vcfg = (s.voice s.cur).vcfg ∧ (t.voice s.cur).duty = (s.voice s.cur).duty ∧
      (t.voice s.cur).seed = (s.voice s.cur).seed ∧ (t.voice s.cur).len = (s.voice s.cur).len ∧
      OnlyWritesVoice s.cur s t

/-- An event whose key misses or whose duration is 0 is skipped: the pointer moves on and nothing else changes (`44_scheduler.md` R146). -/
def Obligations.NoteSkippedOnMissOrZero : Prop :=
  ∀ (s : State) (key : Key) (dur : Word), s.lookup key = .miss ∨ dur = 0 →
    ∃ t, exec (.note key dur) s = .next t ∧ t.voice s.cur = { s.voice s.cur with ptr := (s.voice s.cur).ptr + 1 } ∧
      OnlyWritesVoice s.cur s t

/-- The gate length of a duration (`30_encoding.md` R83, `44_scheduler.md` R147): 38 bits hold it, it is 0 exactly for duration 0, else at least 44,
and it differs from `DUR * 44.1` by less than one sample. -/
def Obligations.GateLengthBounds : Prop :=
  ∀ dur : Word,
    gateLength dur ≤ 189408057709 ∧ gateLength dur < 2 ^ 38 ∧ (gateLength dur = 0 ↔ dur = 0) ∧ (dur ≠ 0 → 44 ≤ gateLength dur) ∧
    10 * gateLength dur ≤ 441 * dur.toNat ∧ 441 * dur.toNat < 10 * gateLength dur + 10

/-! ## The per-sample operations -/

/-- `PULSE` emits one sample, high while `PHASE < DUTY`, and advances the phase (`41_pulse.md` R110, R111, `44_scheduler.md` R150, R151). -/
def Obligations.PulseEmitsSample : Prop :=
  ∀ (s : State) (m : Bool), (s.voice s.cur).st = .playing → (s.voice s.cur).gate ≠ 0 →
    ∃ t, exec (.pulse m) s = .next t ∧
      EmitsSample s t (if (s.voice s.cur).phase.toNat < (s.voice s.cur).duty.toNat then 1073741824 else -1073741824) 5 ∧
      (t.voice s.cur).phase.toNat = ((s.voice s.cur).phase.toNat + (s.voice s.cur).fcw.toNat) % 4294967296 ∧
      (t.voice s.cur).lfsr = (s.voice s.cur).lfsr

/-- `TRIANGLE` emits one sample of the folded phase ramp and advances the phase (`42_triangle.md` R120, `41_pulse.md` R111, `44_scheduler.md` R150, R151). -/
def Obligations.TriangleEmitsSample : Prop :=
  ∀ (s : State) (m : Bool), (s.voice s.cur).st = .playing → (s.voice s.cur).gate ≠ 0 →
    ∃ t, exec (.triangle m) s = .next t ∧
      EmitsSample s t
        (if (s.voice s.cur).phase.toNat < 2147483648 then ((s.voice s.cur).phase.toNat : Int) - 1073741824
         else 3221225472 - ((s.voice s.cur).phase.toNat : Int)) 5 ∧
      (t.voice s.cur).phase.toNat = ((s.voice s.cur).phase.toNat + (s.voice s.cur).fcw.toNat) % 4294967296 ∧
      (t.voice s.cur).lfsr = (s.voice s.cur).lfsr

/-- `NOISE` and `NOISE.M` step `LFSR` first, take the sign from its low bit, emit at level 5 and 4, and leave `PHASE` (`43_noise.md` R130, R131,
`44_scheduler.md` R150, R151). -/
def Obligations.NoiseEmitsSample : Prop :=
  ∀ s : State, (s.voice s.cur).st = .playing → (s.voice s.cur).gate ≠ 0 →
    (∃ t, exec .noise s = .next t ∧ EmitsNoise s t 5) ∧ (∃ t, exec .noiseM s = .next t ∧ EmitsNoise s t 4)

/-- The envelope over a note: at sample `k` the amplitude is `min k 882`, and `RDONE` is set by sample 882 (`40_envelope.md` R100, R101). -/
def Obligations.EnvelopeAtSampleK : Prop :=
  ∀ (r : VoiceRegs) (k : Nat), r.env = 0 → r.rdone = false →
    envAmplitude (envStep^[k] r) = min k 882 ∧ (envStep^[k] r).env.toNat = min k 882 ∧
      (envStep^[k] r).rdone = decide (883 ≤ k)

/-- The phase over a note: after `k` advances from 0 it is `k * FCW mod 2^32` (`41_pulse.md` R111, `10_state.md` R30). -/
def Obligations.PhaseAtSampleK : Prop :=
  ∀ (r : VoiceRegs) (k : Nat), r.phase = 0 → (phaseAdvance^[k] r).phase.toNat = k * r.fcw.toNat % 4294967296

/-- Of the `2^32` phase values exactly `DUTY` are high (`41_pulse.md` R112). -/
def Obligations.PulseHighForDutyPhases : Prop :=
  ∀ r : VoiceRegs, Set.ncard { p : Word | pulseWave { r with phase := p } = 1073741824 } = r.duty.toNat

/-- With duty 0.5, over one full cycle of the accumulator from any phase, high and low samples are equal in number (`41_pulse.md` R114). -/
def Obligations.HalfDutyPulseIsBalanced : Prop :=
  ∀ r : VoiceRegs, r.duty = 0x80000000 → r.fcw ≠ 0 →
    let n := 4294967296 / Nat.gcd r.fcw.toNat 4294967296
    ((Finset.range n).filter fun k => pulseWave (phaseAdvance^[k] r) = 1073741824).card =
      ((Finset.range n).filter fun k => pulseWave (phaseAdvance^[k] r) = -1073741824).card

/-- The bit-vector form of the triangle: neither of its two operations overflows, and it equals the integer form for every phase
(`42_triangle.md` R121). -/
def Obligations.TriangleBitLevelForm : Prop :=
  ∀ r : VoiceRegs,
    let ramp32 : BitVec 32 := (0#1 ++ r.phase.extractLsb' 0 31 : BitVec 32) - 0x40000000#32
    ramp32.toInt = ((r.phase.extractLsb' 0 31).toNat : Int) - 1073741824 ∧
      triWave r = (if r.phase.getLsbD 31 then 0#32 - ramp32 else ramp32).toInt

/-- The triangle stays within level 1 and is symmetric in the phase (`42_triangle.md` R122). -/
def Obligations.TriangleBoundedAndSymmetric : Prop :=
  ∀ r : VoiceRegs, -1073741824 ≤ triWave r ∧ triWave r ≤ 1073741824 ∧ triWave { r with phase := -r.phase } = triWave r

/-- The noise step is a bijection that fixes 0, so it never makes the register 0 (`43_noise.md` R132). -/
def Obligations.XorShiftIsBijection : Prop :=
  xorShift 0 = 0 ∧ Function.Bijective xorShift ∧ ∀ s : Word, xorShift s = 0 → s = 0

/-- The sample word is the exact product, within the spec's bounds: 44 bits lose nothing (`44_scheduler.md` R150, `43_noise.md` R134). -/
def Obligations.SampleWordIsExact : Prop :=
  ∀ (w : Int) (a g : Nat), -1073741824 ≤ w → w ≤ 1073741824 → a ≤ 882 → g ≤ 5 →
    (sampleWord (w * a * g)).toInt = w * a * g ∧ |w * a * g| ≤ 1073741824 * 882 * g

/-- The sample of a Playing voice is the document's real-number formula, gain times envelope times oscillator, as an equation between rationals
(`00_scope.md` R10, with `ENV` for the sample index while it counts; R9's scales). -/
def Obligations.SampleIsDocumentFormula : Prop :=
  ∀ s : State, Inv s → (s.voice s.cur).st = .playing →
    let r := s.voice s.cur
    let p : ℚ := r.phase.toNat / 4294967296
    let A : ℚ := min 1 (((r.env.toNat : ℚ) / 44100) / (2 / 100))
    (∀ (m : Bool) (t : State), exec (.pulse m) s = .next t →
      ((t.port s.cur).data.toInt : ℚ) / 47352014438400 = 1 / 10 * A * (if p < r.duty.toNat / 4294967296 then 1 else -1)) ∧
    (∀ (m : Bool) (t : State), exec (.triangle m) s = .next t →
      ((t.port s.cur).data.toInt : ℚ) / 47352014438400 = 1 / 10 * A * (if p < 1 / 2 then 4 * p - 1 else 3 - 4 * p)) ∧
    (∀ t : State, exec .noise s = .next t →
      ((t.port s.cur).data.toInt : ℚ) / 47352014438400 = 1 / 10 * A * (if (t.voice s.cur).lfsr.getLsbD 0 then 1 else -1)) ∧
    (∀ t : State, exec .noiseM s = .next t →
      ((t.port s.cur).data.toInt : ℚ) / 47352014438400 = 1 / 10 * A * (8 / 10 * (if (t.voice s.cur).lfsr.getLsbD 0 then 1 else -1)))

/-! ## Ticks -/

/-- While `RUN = 0` a tick changes no state and every sample port shows invalid (`44_scheduler.md` R143). -/
def Obligations.TickBeforeStartChangesNothing : Prop :=
  ∀ s : State, s.run = false →
    ∃ t, tick s = .next t ∧ (∀ v, t.port v = { valid := false, data := 0, first := false, last := false }) ∧
      KeepsGlobals s t ∧ KeepsVoices s t ∧ t.mel = s.mel ∧ t.readData = s.readData ∧ KeepsEnvironment s t

/-- Finished is terminal: the `VoiceTick` of a Finished voice changes no state and its port shows invalid, and so in a whole tick; when all five
are Finished, no tick changes any state (`44_scheduler.md` R144). -/
def Obligations.FinishedIsTerminal : Prop :=
  (∀ s : State, (s.voice s.cur).st = .finished →
    ∃ t, voiceTick s = .next t ∧ KeepsGlobals s t ∧ KeepsVoices s t ∧ t.mel = s.mel ∧ t.readData = s.readData ∧ KeepsEnvironment s t ∧
      t.port s.cur = { valid := false, data := 0, first := false, last := false } ∧ ∀ v, v ≠ s.cur → t.port v = s.port v) ∧
  (∀ (s t : State) (v : Voice), s.run = true → (s.voice v).st = .finished → tick s = .next t →
    t.voice v = s.voice v ∧ t.port v = .silent) ∧
  (∀ s : State, s.allDone = true →
    ∃ t, tick s = .next t ∧ KeepsGlobals s t ∧ KeepsVoices s t ∧ t.mel = s.mel ∧ t.readData = s.readData ∧ KeepsEnvironment s t ∧
      ∀ v, t.port v = .silent)

/-- The transitions of `ST[v]` in a tick of a running machine in an invariant state, read off `44_scheduler.md` R142: nothing leaves Finished; Playing stays, or
becomes Idle when the gate runs out; an Idle voice is Playing or Finished at the end of the tick. -/
def Obligations.SchedulerTransitions : Prop :=
  ∀ (s t : State) (v : Voice), Inv s → s.run = true → tick s = .next t →
    ((s.voice v).st = .finished → (t.voice v).st = .finished) ∧
    ((s.voice v).st = .playing → (s.voice v).gate ≠ 1 → (t.voice v).st = .playing) ∧
    ((s.voice v).st = .playing → (s.voice v).gate = 1 → (t.voice v).st = .idle) ∧
    ((s.voice v).st = .idle → (t.voice v).st = .playing ∨ (t.voice v).st = .finished)

/-- A voice's step is a function of its own registers, its own melody and the FrequencyTable: whatever the other voices hold, the registers and the
sample are the same (`20_memory.md` R61, `44_scheduler.md` R141). -/
def Obligations.VoicesAreIsolated : Prop :=
  ∀ (s s' t t' : State) (v : Voice), s.run = s'.run → s.voice v = s'.voice v → (∀ key, s.lookup key = s'.lookup key) →
    (∀ (k : EventIndex) (n : Nat), n ≤ 2 → s.melWord v k n = s'.melWord v k n) →
    tick s = .next t → tick s' = .next t' →
    t.voice v = t'.voice v ∧ t.port v = t'.port v

/-- Skipped events cost no tick: an Idle voice whose next `j` events are skipped and whose event after them plays consumes all `j + 1` in one tick, starts that
note, and emits its first sample, which is 0 (`44_scheduler.md` R145, R146, R153, R155). The machine is loaded, as
`70_reset_and_hazards.md` R223 asks. -/
def Obligations.SkippedEventsCostNoTick : Prop :=
  ∀ (s : State) (v : Voice) (j : Nat) (fcw : Word), Inv s → Loaded s → s.run = true → (s.voice v).st = .idle →
    (s.voice v).ptr.toNat + j < (s.voice v).len.toNat →
    (∀ m < j, Skipped s v ((s.voice v).ptr.toNat + m)) →
    s.lookup (s.eventKey v ((s.voice v).ptr.toNat + j)) = .hit fcw → s.eventDur v ((s.voice v).ptr.toNat + j) ≠ 0 →
    ∃ t, tick s = .next t ∧ (t.voice v).ptr.toNat = (s.voice v).ptr.toNat + j + 1 ∧ (t.voice v).st = .playing ∧
      (t.voice v).fcw = fcw ∧ (t.voice v).notes = (s.voice v).notes + 1 ∧
      (t.voice v).gate.toNat + 1 = (s.eventDur v ((s.voice v).ptr.toNat + j)).toNat * 441 / 10 ∧
      t.port v = { valid := true, data := 0, first := true, last := false }

/-- A melody with no playable event left ends in the same tick, without a sample: Finished, `PTR = LEN`, `NOTES` as before (`44_scheduler.md` R145, R154). The machine is loaded, as
`70_reset_and_hazards.md` R223 asks. -/
def Obligations.ExhaustedMelodyFinishes : Prop :=
  ∀ (s : State) (v : Voice), Inv s → Loaded s → s.run = true → (s.voice v).st = .idle →
    (∀ m, (s.voice v).ptr.toNat ≤ m → m < (s.voice v).len.toNat → Skipped s v m) →
    ∃ t, tick s = .next t ∧ (t.voice v).st = .finished ∧ (t.voice v).ptr = (s.voice v).len ∧
      (t.voice v).notes = (s.voice v).notes ∧ t.port v = .silent

/-- A note lasts its gate: a Playing voice with `GATE = g` emits a sample at each of the next `g` ticks, `last` exactly on the `g`-th, when it becomes Idle; its
pointer and note count stay (`44_scheduler.md` R147, R151, R152). The machine is loaded, as
`70_reset_and_hazards.md` R223 asks. -/
def Obligations.NoteLastsItsGate : Prop :=
  ∀ (s : State) (v : Voice) (n : Nat), Loaded s → s.run = true → (s.voice v).st = .playing → n < (s.voice v).gate.toNat →
    ∃ t, ticks (n + 1) s = .next t ∧ (t.port v).valid = true ∧
      (t.port v).last = decide (n + 1 = (s.voice v).gate.toNat) ∧
      (t.voice v).gate.toNat = (s.voice v).gate.toNat - (n + 1) ∧
      (t.voice v).st = (if n + 1 = (s.voice v).gate.toNat then .idle else .playing) ∧
      (t.voice v).ptr = (s.voice v).ptr ∧ (t.voice v).notes = (s.voice v).notes

/-- The samples of a whole note, in closed form: from the registers a note start leaves (`44_scheduler.md` R148), tick `k` of the note emits `w(k) * min k 882 * g`, `first`
at `k = 0` and `last` at `k = GATE - 1` (`10_state.md` R30, `40_envelope.md` R101, `43_noise.md` R133, `44_scheduler.md` R150, R152). The machine is loaded, as
`70_reset_and_hazards.md` R223 asks. -/
def Obligations.NoteSampleSequence : Prop :=
  ∀ (s : State) (v : Voice) (k : Nat), Loaded s → s.run = true → (s.voice v).st = .playing → (s.voice v).env = 0 → (s.voice v).rdone = false →
    (s.voice v).phase = 0 → (s.voice v).lfsr = (s.voice v).seed → k < (s.voice v).gate.toNat →
    ∃ t, ticks (k + 1) s = .next t ∧
      t.port v = { valid := true
                   data := BitVec.ofInt 44 (noteWave (s.voice v) k * (min k 882 : Nat) * noteLevel (s.voice v).vcfg)
                   first := decide (k = 0)
                   last := decide (k + 1 = (s.voice v).gate.toNat) }

/-- Total length: a running Idle voice with `T` samples left to play emits a sample at exactly the next `T` ticks and is Finished from tick `T` on
(`44_scheduler.md` R153, R154). The machine is loaded, as
`70_reset_and_hazards.md` R223 asks. -/
def Obligations.MelodyTotalLength : Prop :=
  ∀ (s : State) (v : Voice) (n : Nat), Inv s → Loaded s → s.run = true → (s.voice v).st = .idle →
    ∃ t, ticks (n + 1) s = .next t ∧ (t.port v).valid = decide (n < s.samplesLeft v) ∧
      ((t.voice v).st = .finished ↔ s.samplesLeft v ≤ n)

/-- The join: with every voice Idle in a running machine, `all_done` is 1 after `n + 1` ticks exactly if no voice has more than `n` samples to play
(`10_state.md` R39, `44_scheduler.md` R154). The machine is loaded, as
`70_reset_and_hazards.md` R223 asks. -/
def Obligations.AllDoneWhenLongestVoiceEnds : Prop :=
  ∀ (s : State) (n : Nat), Inv s → Loaded s → s.run = true → (∀ v, (s.voice v).st = .idle) →
    ∃ t, ticks (n + 1) s = .next t ∧ (t.allDone = true ↔ ∀ v, s.samplesLeft v ≤ n)

/-! ## Invariants and whole-machine rules -/

/-- A tick touches the five voices' registers and the sample ports and nothing else (`10_state.md` R20, `20_memory.md` R60, R65). -/
def Obligations.TickTouchesOnlyVoicesAndPorts : Prop :=
  ∀ s t : State, tick s = .next t → KeepsGlobals s t ∧ KeepsMemory s t ∧ t.readData = s.readData ∧ KeepsEnvironment s t

/-- Every step keeps the invariant of `10_state.md` R50. -/
def Obligations.StepKeepsRegisterInvariant : Prop :=
  ∀ s t : State, Inv s → step s = .next t → Inv t

/-- Every step keeps the canonical form of the melody memory (the model's own invariant, log 8). -/
def Obligations.StepKeepsMemoryCanonical : Prop :=
  ∀ s t : State, s.mel.wf = true → step s = .next t → t.mel.wf = true

/-- While `RUN = 1` no step but reset changes the configuration, the melody or `RUN` itself (`10_state.md` R21, R48, `45_host.md` R172, R180). -/
def Obligations.RunFreezesConfiguration : Prop :=
  ∀ s t : State, s.run = true → (∀ rest, s.pending ≠ .reset :: rest) → step s = .next t →
    t.run = true ∧ t.mel = s.mel ∧
      ∀ v, (t.voice v).vcfg = (s.voice v).vcfg ∧ (t.voice v).duty = (s.voice v).duty ∧ (t.voice v).seed = (s.voice v).seed ∧
        (t.voice v).len = (s.voice v).len

/-- Host operations never move a voice: with a host write or read next, no step changes a scheduler or oscillator register or a port
(`10_state.md` R26, `45_host.md` R170 to R178; that the ports hold between ticks is the model's choice, log 6). -/
def Obligations.HostNeverMovesVoices : Prop :=
  ∀ (s t : State) (rest : List Input), (∃ w, s.pending = .write w :: rest) ∨ (∃ a, s.pending = .read a :: rest) → step s = .next t →
    ∀ v, (t.voice v).ptr = (s.voice v).ptr ∧ (t.voice v).st = (s.voice v).st ∧ (t.voice v).notes = (s.voice v).notes ∧
      (t.voice v).gate = (s.voice v).gate ∧ (t.voice v).fcw = (s.voice v).fcw ∧ (t.voice v).phase = (s.voice v).phase ∧
      (t.voice v).env = (s.voice v).env ∧ (t.voice v).rdone = (s.voice v).rdone ∧ (t.voice v).lfsr = (s.voice v).lfsr ∧
      t.port v = s.port v

/-- `all_done`, once 1, stays 1 until reset (`60_exceptions.md` R193). -/
def Obligations.AllDoneHoldsUntilReset : Prop :=
  ∀ s t : State, s.allDone = true → (∀ rest, s.pending ≠ .reset :: rest) → step s = .next t → t.allDone = true

/-- No step changes the FrequencyTable's answers (`70_reset_and_hazards.md` R227; the table as the model holds it is log 3). -/
def Obligations.FrequencyTableIsConstant : Prop :=
  ∀ (s t : State) (key : Key), step s = .next t → t.lookup key = s.lookup key
end

