-- ==== Sys2Proof/Laws/Decode.lean ====
section
/-! SUPPORT. Addresses and fields: which place an address names, and the parts of a host write word. -/

namespace Sys2Proof

theorem voiceOfField_voice (v : Voice) : voiceOfField (v.val + 1) = some v := by
  fin_cases v <;> rfl

/-- The address of a per-voice register names that register (`10_state.md` R40). -/
theorem placeOf_reg (v : Voice) (o : Nat) (ho : o ≤ 6) : placeOf (BitVec.ofNat 16 (regAddr v o)) = .reg v o := by
  fin_cases v <;> interval_cases o <;> rfl

theorem regAddr_lt (v : Voice) (o : Nat) (ho : o < 256) : regAddr v o < 65536 := by
  have := v.isLt
  unfold regAddr
  omega

theorem melAddr_lt (v : Voice) (i : EventIndex) (n : Nat) (hn : n < 4) : melAddr v i n < 65536 := by
  have := i.isLt
  have := v.isLt
  unfold melAddr
  omega

theorem melAddr_toNat (v : Voice) (i : EventIndex) (n : Nat) (hn : n < 4) :
    (BitVec.ofNat 16 (melAddr v i n)).toNat = melAddr v i n := by
  rw [BitVec.toNat_ofNat]
  exact Nat.mod_eq_of_lt (melAddr_lt v i n hn)

/-- The address of a melody word names that word (`10_state.md` R40). -/
theorem placeOf_mel (v : Voice) (i : EventIndex) (n : Nat) (hn : n ≤ 2) :
    placeOf (BitVec.ofNat 16 (melAddr v i n)) = .mel v i n := by
  have hi := i.isLt
  have hv := v.isLt
  have ht := melAddr_toNat v i n (by omega)
  have hne : ∀ c : Nat, c < 2 → BitVec.ofNat 16 (melAddr v i n) ≠ BitVec.ofNat 16 c := by
    intro c hc h
    have h' := congrArg BitVec.toNat h
    rw [ht, BitVec.toNat_ofNat] at h'
    unfold melAddr at h'
    omega
  have hd : melAddr v i n / 0x1000 = v.val + 1 := by unfold melAddr; omega
  have hm : melAddr v i n % 4 = n := by unfold melAddr; omega
  have hq : BitVec.ofNat 10 (melAddr v i n / 4) = i := by
    apply BitVec.eq_of_toNat_eq
    rw [BitVec.toNat_ofNat]
    unfold melAddr
    omega
  unfold placeOf
  rw [if_neg (show _ ≠ (0 : Addr) from hne 0 (by omega)), if_neg (show _ ≠ (1 : Addr) from hne 1 (by omega)), ht, hd, if_neg (by omega), voiceOfField_voice]
  simp [hm, hn, hq]

theorem placeOf_of_reg (a : Addr) (v : Voice) (o : Nat) (ho : o ≤ 6) (h : a.toNat = regAddr v o) : placeOf a = .reg v o := by
  rw [← placeOf_reg v o ho, ← h, BitVec.ofNat_toNat, BitVec.setWidth_eq]

theorem placeOf_of_mel (a : Addr) (v : Voice) (i : EventIndex) (n : Nat) (hn : n ≤ 2) (h : a.toNat = melAddr v i n) :
    placeOf a = .mel v i n := by
  rw [← placeOf_mel v i n hn, ← h, BitVec.ofNat_toNat, BitVec.setWidth_eq]

theorem voiceOfField_eq_some (x : Nat) (v : Voice) (h : voiceOfField x = some v) : x = v.val + 1 := by
  unfold voiceOfField at h
  split at h
  · cases h
    simp only
    omega
  · cases h

/-- Every address is `CTRL`, `STATUS`, a register, a melody word, or nothing, and is at the address its place says. -/
theorem placeOf_cases (a : Addr) :
    (a = 0 ∧ placeOf a = .ctrl) ∨ (a = 1 ∧ placeOf a = .status) ∨
      (∃ v o, o ≤ 6 ∧ a.toNat = regAddr v o ∧ placeOf a = .reg v o) ∨
      (∃ v i n, n ≤ 2 ∧ a.toNat = melAddr v i n ∧ placeOf a = .mel v i n) ∨ placeOf a = .nothing := by
  have ha := a.isLt
  unfold placeOf
  split
  · next h => exact .inl ⟨h, rfl⟩
  split
  · next h => exact .inr (.inl ⟨h, rfl⟩)
  split
  · cases hv : voiceOfField (a.toNat / 0x100) with
    | none => simp
    | some v =>
      have := voiceOfField_eq_some _ v hv
      dsimp only
      split
      · next h6 => exact .inr (.inr (.inl ⟨v, _, h6, by unfold regAddr; omega, rfl⟩))
      · simp
  · cases hv : voiceOfField (a.toNat / 0x1000) with
    | none => simp
    | some v =>
      have := voiceOfField_eq_some _ v hv
      dsimp only
      split
      · next h2 =>
        refine .inr (.inr (.inr (.inl ⟨v, _, _, h2, ?_, rfl⟩)))
        unfold melAddr
        rw [BitVec.toNat_ofNat]
        omega
      · simp

theorem append_hi (a : Addr) (d : Word) : (a ++ d).extractLsb' 32 16 = a := by
  apply BitVec.eq_of_getLsbD_eq
  intro i hi
  rw [BitVec.getLsbD_extractLsb', BitVec.getLsbD_append]
  simp [hi]

theorem append_lo (a : Addr) (d : Word) : (a ++ d).extractLsb' 0 32 = d := by
  apply BitVec.eq_of_getLsbD_eq
  intro i hi
  rw [BitVec.getLsbD_extractLsb', BitVec.getLsbD_append]
  simp [hi]

/-- A host write word is decoded by its address and its data (`30_encoding.md` R84). -/
theorem decode_hostWrite (a : Addr) (d : Word) : decode (.hostWrite (a ++ d)) = decodeWrite a d := by
  show decodeWrite ((a ++ d).extractLsb' 32 16) ((a ++ d).extractLsb' 0 32) = _
  rw [append_hi, append_lo]

end Sys2Proof
end

