-- ==== Sys2Proof/Laws/State.lean ====
section
/-! SUPPORT. What each update of the state leaves in each field and each reader: one lemma for each pair, so that no proof unfolds an update. -/

namespace Sys2Proof.Machine

section Updates
variable (s : State)

@[simp] theorem State.setVoice_run (v : Voice) (r : VoiceRegs) : (s.setVoice v r).run = s.run := rfl
@[simp] theorem State.setVoice_cfgerr (v : Voice) (r : VoiceRegs) : (s.setVoice v r).cfgerr = s.cfgerr := rfl
@[simp] theorem State.setVoice_mel (v : Voice) (r : VoiceRegs) : (s.setVoice v r).mel = s.mel := rfl
@[simp] theorem State.setVoice_ports (v : Voice) (r : VoiceRegs) : (s.setVoice v r).ports = s.ports := rfl
@[simp] theorem State.setVoice_port (v : Voice) (r : VoiceRegs) (u : Voice) : (s.setVoice v r).port u = s.port u := rfl
@[simp] theorem State.setVoice_readData (v : Voice) (r : VoiceRegs) : (s.setVoice v r).readData = s.readData := rfl
@[simp] theorem State.setVoice_ft (v : Voice) (r : VoiceRegs) : (s.setVoice v r).ft = s.ft := rfl
@[simp] theorem State.setVoice_pending (v : Voice) (r : VoiceRegs) : (s.setVoice v r).pending = s.pending := rfl
@[simp] theorem State.setVoice_cur (v : Voice) (r : VoiceRegs) : (s.setVoice v r).cur = s.cur := rfl
@[simp] theorem State.setVoice_byte (v : Voice) (r : VoiceRegs) (k : Nat) : (s.setVoice v r).byte k = s.byte k := rfl
@[simp] theorem State.setVoice_word (v : Voice) (r : VoiceRegs) (k : Nat) : (s.setVoice v r).word k = s.word k := rfl
@[simp] theorem State.setVoice_melWord (v : Voice) (r : VoiceRegs) (u : Voice) (i : EventIndex) (n : Nat) : (s.setVoice v r).melWord u i n = s.melWord u i n := rfl
@[simp] theorem State.setVoice_wordWritten (v : Voice) (r : VoiceRegs) (a : Nat) : (s.setVoice v r).wordWritten a = s.wordWritten a := rfl
@[simp] theorem State.setVoice_eventWritten (v : Voice) (r : VoiceRegs) (u : Voice) (i : EventIndex) : (s.setVoice v r).eventWritten u i = s.eventWritten u i := rfl
@[simp] theorem State.setVoice_melFetch (v : Voice) (r : VoiceRegs) (u : Voice) (i : EventIndex) : (s.setVoice v r).melFetch u i = s.melFetch u i := rfl
@[simp] theorem State.setVoice_lookup (v : Voice) (r : VoiceRegs) (key : Key) : (s.setVoice v r).lookup key = s.lookup key := rfl

@[simp] theorem State.setPort_run (v : Voice) (p : SamplePort) : (s.setPort v p).run = s.run := rfl
@[simp] theorem State.setPort_cfgerr (v : Voice) (p : SamplePort) : (s.setPort v p).cfgerr = s.cfgerr := rfl
@[simp] theorem State.setPort_voice (v : Voice) (p : SamplePort) (u : Voice) : (s.setPort v p).voice u = s.voice u := rfl
@[simp] theorem State.setPort_mel (v : Voice) (p : SamplePort) : (s.setPort v p).mel = s.mel := rfl
@[simp] theorem State.setPort_ports (v : Voice) (p : SamplePort) : (s.setPort v p).ports = s.ports.set v p := rfl
@[simp] theorem State.setPort_readData (v : Voice) (p : SamplePort) : (s.setPort v p).readData = s.readData := rfl
@[simp] theorem State.setPort_ft (v : Voice) (p : SamplePort) : (s.setPort v p).ft = s.ft := rfl
@[simp] theorem State.setPort_pending (v : Voice) (p : SamplePort) : (s.setPort v p).pending = s.pending := rfl
@[simp] theorem State.setPort_cur (v : Voice) (p : SamplePort) : (s.setPort v p).cur = s.cur := rfl
@[simp] theorem State.setPort_byte (v : Voice) (p : SamplePort) (k : Nat) : (s.setPort v p).byte k = s.byte k := rfl
@[simp] theorem State.setPort_word (v : Voice) (p : SamplePort) (k : Nat) : (s.setPort v p).word k = s.word k := rfl
@[simp] theorem State.setPort_melWord (v : Voice) (p : SamplePort) (u : Voice) (i : EventIndex) (n : Nat) : (s.setPort v p).melWord u i n = s.melWord u i n := rfl
@[simp] theorem State.setPort_wordWritten (v : Voice) (p : SamplePort) (a : Nat) : (s.setPort v p).wordWritten a = s.wordWritten a := rfl
@[simp] theorem State.setPort_eventWritten (v : Voice) (p : SamplePort) (u : Voice) (i : EventIndex) : (s.setPort v p).eventWritten u i = s.eventWritten u i := rfl
@[simp] theorem State.setPort_melFetch (v : Voice) (p : SamplePort) (u : Voice) (i : EventIndex) : (s.setPort v p).melFetch u i = s.melFetch u i := rfl
@[simp] theorem State.setPort_lookup (v : Voice) (p : SamplePort) (key : Key) : (s.setPort v p).lookup key = s.lookup key := rfl

@[simp] theorem State.setRun_run (b : Bool) : (s.setRun b).run = b := rfl
@[simp] theorem State.setRun_cfgerr (b : Bool) : (s.setRun b).cfgerr = s.cfgerr := rfl
@[simp] theorem State.setRun_voice (b : Bool) (u : Voice) : (s.setRun b).voice u = s.voice u := rfl
@[simp] theorem State.setRun_mel (b : Bool) : (s.setRun b).mel = s.mel := rfl
@[simp] theorem State.setRun_ports (b : Bool) : (s.setRun b).ports = s.ports := rfl
@[simp] theorem State.setRun_port (b : Bool) (u : Voice) : (s.setRun b).port u = s.port u := rfl
@[simp] theorem State.setRun_readData (b : Bool) : (s.setRun b).readData = s.readData := rfl
@[simp] theorem State.setRun_ft (b : Bool) : (s.setRun b).ft = s.ft := rfl
@[simp] theorem State.setRun_pending (b : Bool) : (s.setRun b).pending = s.pending := rfl
@[simp] theorem State.setRun_cur (b : Bool) : (s.setRun b).cur = s.cur := rfl
@[simp] theorem State.setRun_byte (b : Bool) (k : Nat) : (s.setRun b).byte k = s.byte k := rfl
@[simp] theorem State.setRun_word (b : Bool) (k : Nat) : (s.setRun b).word k = s.word k := rfl
@[simp] theorem State.setRun_melWord (b : Bool) (u : Voice) (i : EventIndex) (n : Nat) : (s.setRun b).melWord u i n = s.melWord u i n := rfl
@[simp] theorem State.setRun_wordWritten (b : Bool) (a : Nat) : (s.setRun b).wordWritten a = s.wordWritten a := rfl
@[simp] theorem State.setRun_eventWritten (b : Bool) (u : Voice) (i : EventIndex) : (s.setRun b).eventWritten u i = s.eventWritten u i := rfl
@[simp] theorem State.setRun_melFetch (b : Bool) (u : Voice) (i : EventIndex) : (s.setRun b).melFetch u i = s.melFetch u i := rfl
@[simp] theorem State.setRun_lookup (b : Bool) (key : Key) : (s.setRun b).lookup key = s.lookup key := rfl

@[simp] theorem State.setReadData_run (d : Word) : (s.setReadData d).run = s.run := rfl
@[simp] theorem State.setReadData_cfgerr (d : Word) : (s.setReadData d).cfgerr = s.cfgerr := rfl
@[simp] theorem State.setReadData_voice (d : Word) (u : Voice) : (s.setReadData d).voice u = s.voice u := rfl
@[simp] theorem State.setReadData_mel (d : Word) : (s.setReadData d).mel = s.mel := rfl
@[simp] theorem State.setReadData_ports (d : Word) : (s.setReadData d).ports = s.ports := rfl
@[simp] theorem State.setReadData_port (d : Word) (u : Voice) : (s.setReadData d).port u = s.port u := rfl
@[simp] theorem State.setReadData_readData (d : Word) : (s.setReadData d).readData = some d := rfl
@[simp] theorem State.setReadData_ft (d : Word) : (s.setReadData d).ft = s.ft := rfl
@[simp] theorem State.setReadData_pending (d : Word) : (s.setReadData d).pending = s.pending := rfl
@[simp] theorem State.setReadData_cur (d : Word) : (s.setReadData d).cur = s.cur := rfl
@[simp] theorem State.setReadData_byte (d : Word) (k : Nat) : (s.setReadData d).byte k = s.byte k := rfl
@[simp] theorem State.setReadData_word (d : Word) (k : Nat) : (s.setReadData d).word k = s.word k := rfl
@[simp] theorem State.setReadData_melWord (d : Word) (u : Voice) (i : EventIndex) (n : Nat) : (s.setReadData d).melWord u i n = s.melWord u i n := rfl
@[simp] theorem State.setReadData_wordWritten (d : Word) (a : Nat) : (s.setReadData d).wordWritten a = s.wordWritten a := rfl
@[simp] theorem State.setReadData_eventWritten (d : Word) (u : Voice) (i : EventIndex) : (s.setReadData d).eventWritten u i = s.eventWritten u i := rfl
@[simp] theorem State.setReadData_melFetch (d : Word) (u : Voice) (i : EventIndex) : (s.setReadData d).melFetch u i = s.melFetch u i := rfl
@[simp] theorem State.setReadData_lookup (d : Word) (key : Key) : (s.setReadData d).lookup key = s.lookup key := rfl

@[simp] theorem State.setCur_run (v : Voice) : (s.setCur v).run = s.run := rfl
@[simp] theorem State.setCur_cfgerr (v : Voice) : (s.setCur v).cfgerr = s.cfgerr := rfl
@[simp] theorem State.setCur_voice (v : Voice) (u : Voice) : (s.setCur v).voice u = s.voice u := rfl
@[simp] theorem State.setCur_mel (v : Voice) : (s.setCur v).mel = s.mel := rfl
@[simp] theorem State.setCur_ports (v : Voice) : (s.setCur v).ports = s.ports := rfl
@[simp] theorem State.setCur_port (v : Voice) (u : Voice) : (s.setCur v).port u = s.port u := rfl
@[simp] theorem State.setCur_readData (v : Voice) : (s.setCur v).readData = s.readData := rfl
@[simp] theorem State.setCur_ft (v : Voice) : (s.setCur v).ft = s.ft := rfl
@[simp] theorem State.setCur_pending (v : Voice) : (s.setCur v).pending = s.pending := rfl
@[simp] theorem State.setCur_cur (v : Voice) : (s.setCur v).cur = v := rfl
@[simp] theorem State.setCur_byte (v : Voice) (k : Nat) : (s.setCur v).byte k = s.byte k := rfl
@[simp] theorem State.setCur_word (v : Voice) (k : Nat) : (s.setCur v).word k = s.word k := rfl
@[simp] theorem State.setCur_melWord (v : Voice) (u : Voice) (i : EventIndex) (n : Nat) : (s.setCur v).melWord u i n = s.melWord u i n := rfl
@[simp] theorem State.setCur_wordWritten (v : Voice) (a : Nat) : (s.setCur v).wordWritten a = s.wordWritten a := rfl
@[simp] theorem State.setCur_eventWritten (v : Voice) (u : Voice) (i : EventIndex) : (s.setCur v).eventWritten u i = s.eventWritten u i := rfl
@[simp] theorem State.setCur_melFetch (v : Voice) (u : Voice) (i : EventIndex) : (s.setCur v).melFetch u i = s.melFetch u i := rfl
@[simp] theorem State.setCur_lookup (v : Voice) (key : Key) : (s.setCur v).lookup key = s.lookup key := rfl

@[simp] theorem State.setPending_run (q : List Input) : (s.setPending q).run = s.run := rfl
@[simp] theorem State.setPending_cfgerr (q : List Input) : (s.setPending q).cfgerr = s.cfgerr := rfl
@[simp] theorem State.setPending_voice (q : List Input) (u : Voice) : (s.setPending q).voice u = s.voice u := rfl
@[simp] theorem State.setPending_mel (q : List Input) : (s.setPending q).mel = s.mel := rfl
@[simp] theorem State.setPending_ports (q : List Input) : (s.setPending q).ports = s.ports := rfl
@[simp] theorem State.setPending_port (q : List Input) (u : Voice) : (s.setPending q).port u = s.port u := rfl
@[simp] theorem State.setPending_readData (q : List Input) : (s.setPending q).readData = s.readData := rfl
@[simp] theorem State.setPending_ft (q : List Input) : (s.setPending q).ft = s.ft := rfl
@[simp] theorem State.setPending_pending (q : List Input) : (s.setPending q).pending = q := rfl
@[simp] theorem State.setPending_cur (q : List Input) : (s.setPending q).cur = s.cur := rfl
@[simp] theorem State.setPending_byte (q : List Input) (k : Nat) : (s.setPending q).byte k = s.byte k := rfl
@[simp] theorem State.setPending_word (q : List Input) (k : Nat) : (s.setPending q).word k = s.word k := rfl
@[simp] theorem State.setPending_melWord (q : List Input) (u : Voice) (i : EventIndex) (n : Nat) : (s.setPending q).melWord u i n = s.melWord u i n := rfl
@[simp] theorem State.setPending_wordWritten (q : List Input) (a : Nat) : (s.setPending q).wordWritten a = s.wordWritten a := rfl
@[simp] theorem State.setPending_eventWritten (q : List Input) (u : Voice) (i : EventIndex) : (s.setPending q).eventWritten u i = s.eventWritten u i := rfl
@[simp] theorem State.setPending_melFetch (q : List Input) (u : Voice) (i : EventIndex) : (s.setPending q).melFetch u i = s.melFetch u i := rfl
@[simp] theorem State.setPending_lookup (q : List Input) (key : Key) : (s.setPending q).lookup key = s.lookup key := rfl

@[simp] theorem State.setFt_run (f : List (Key × FtAnswer)) : (s.setFt f).run = s.run := rfl
@[simp] theorem State.setFt_cfgerr (f : List (Key × FtAnswer)) : (s.setFt f).cfgerr = s.cfgerr := rfl
@[simp] theorem State.setFt_voice (f : List (Key × FtAnswer)) (u : Voice) : (s.setFt f).voice u = s.voice u := rfl
@[simp] theorem State.setFt_mel (f : List (Key × FtAnswer)) : (s.setFt f).mel = s.mel := rfl
@[simp] theorem State.setFt_ports (f : List (Key × FtAnswer)) : (s.setFt f).ports = s.ports := rfl
@[simp] theorem State.setFt_port (f : List (Key × FtAnswer)) (u : Voice) : (s.setFt f).port u = s.port u := rfl
@[simp] theorem State.setFt_readData (f : List (Key × FtAnswer)) : (s.setFt f).readData = s.readData := rfl
@[simp] theorem State.setFt_ft (f : List (Key × FtAnswer)) : (s.setFt f).ft = f := rfl
@[simp] theorem State.setFt_pending (f : List (Key × FtAnswer)) : (s.setFt f).pending = s.pending := rfl
@[simp] theorem State.setFt_cur (f : List (Key × FtAnswer)) : (s.setFt f).cur = s.cur := rfl
@[simp] theorem State.setFt_byte (f : List (Key × FtAnswer)) (k : Nat) : (s.setFt f).byte k = s.byte k := rfl
@[simp] theorem State.setFt_word (f : List (Key × FtAnswer)) (k : Nat) : (s.setFt f).word k = s.word k := rfl
@[simp] theorem State.setFt_melWord (f : List (Key × FtAnswer)) (u : Voice) (i : EventIndex) (n : Nat) : (s.setFt f).melWord u i n = s.melWord u i n := rfl
@[simp] theorem State.setFt_wordWritten (f : List (Key × FtAnswer)) (a : Nat) : (s.setFt f).wordWritten a = s.wordWritten a := rfl
@[simp] theorem State.setFt_eventWritten (f : List (Key × FtAnswer)) (u : Voice) (i : EventIndex) : (s.setFt f).eventWritten u i = s.eventWritten u i := rfl
@[simp] theorem State.setFt_melFetch (f : List (Key × FtAnswer)) (u : Voice) (i : EventIndex) : (s.setFt f).melFetch u i = s.melFetch u i := rfl
@[simp] theorem State.setFt_lookup (f : List (Key × FtAnswer)) (key : Key) : (s.setFt f).lookup key = (pinned f key).getD (Config.freqTable key) := rfl

@[simp] theorem State.silence_run : (s.silence).run = s.run := rfl
@[simp] theorem State.silence_cfgerr : (s.silence).cfgerr = s.cfgerr := rfl
@[simp] theorem State.silence_voice (u : Voice) : (s.silence).voice u = s.voice u := rfl
@[simp] theorem State.silence_mel : (s.silence).mel = s.mel := rfl
@[simp] theorem State.silence_ports : (s.silence).ports = #v[.silent, .silent, .silent, .silent, .silent] := rfl
@[simp] theorem State.silence_readData : (s.silence).readData = s.readData := rfl
@[simp] theorem State.silence_ft : (s.silence).ft = s.ft := rfl
@[simp] theorem State.silence_pending : (s.silence).pending = s.pending := rfl
@[simp] theorem State.silence_cur : (s.silence).cur = s.cur := rfl
@[simp] theorem State.silence_byte (k : Nat) : (s.silence).byte k = s.byte k := rfl
@[simp] theorem State.silence_word (k : Nat) : (s.silence).word k = s.word k := rfl
@[simp] theorem State.silence_melWord (u : Voice) (i : EventIndex) (n : Nat) : (s.silence).melWord u i n = s.melWord u i n := rfl
@[simp] theorem State.silence_wordWritten (a : Nat) : (s.silence).wordWritten a = s.wordWritten a := rfl
@[simp] theorem State.silence_eventWritten (u : Voice) (i : EventIndex) : (s.silence).eventWritten u i = s.eventWritten u i := rfl
@[simp] theorem State.silence_melFetch (u : Voice) (i : EventIndex) : (s.silence).melFetch u i = s.melFetch u i := rfl
@[simp] theorem State.silence_lookup (key : Key) : (s.silence).lookup key = s.lookup key := rfl

@[simp] theorem State.setWord_run (a : Nat) (d : Word) : (s.setWord a d).run = s.run := rfl
@[simp] theorem State.setWord_cfgerr (a : Nat) (d : Word) : (s.setWord a d).cfgerr = s.cfgerr := rfl
@[simp] theorem State.setWord_voice (a : Nat) (d : Word) (u : Voice) : (s.setWord a d).voice u = s.voice u := rfl
@[simp] theorem State.setWord_mel (a : Nat) (d : Word) : (s.setWord a d).mel = memWriteWord s.mel a d := rfl
@[simp] theorem State.setWord_ports (a : Nat) (d : Word) : (s.setWord a d).ports = s.ports := rfl
@[simp] theorem State.setWord_port (a : Nat) (d : Word) (u : Voice) : (s.setWord a d).port u = s.port u := rfl
@[simp] theorem State.setWord_readData (a : Nat) (d : Word) : (s.setWord a d).readData = s.readData := rfl
@[simp] theorem State.setWord_ft (a : Nat) (d : Word) : (s.setWord a d).ft = s.ft := rfl
@[simp] theorem State.setWord_pending (a : Nat) (d : Word) : (s.setWord a d).pending = s.pending := rfl
@[simp] theorem State.setWord_cur (a : Nat) (d : Word) : (s.setWord a d).cur = s.cur := rfl
@[simp] theorem State.setWord_lookup (a : Nat) (d : Word) (key : Key) : (s.setWord a d).lookup key = s.lookup key := rfl

@[simp] theorem dropWrite_run : (dropWrite s).run = s.run := rfl
@[simp] theorem dropWrite_cfgerr : (dropWrite s).cfgerr = true := rfl
@[simp] theorem dropWrite_voice (u : Voice) : (dropWrite s).voice u = s.voice u := rfl
@[simp] theorem dropWrite_mel : (dropWrite s).mel = s.mel := rfl
@[simp] theorem dropWrite_ports : (dropWrite s).ports = s.ports := rfl
@[simp] theorem dropWrite_port (u : Voice) : (dropWrite s).port u = s.port u := rfl
@[simp] theorem dropWrite_readData : (dropWrite s).readData = s.readData := rfl
@[simp] theorem dropWrite_ft : (dropWrite s).ft = s.ft := rfl
@[simp] theorem dropWrite_pending : (dropWrite s).pending = s.pending := rfl
@[simp] theorem dropWrite_cur : (dropWrite s).cur = s.cur := rfl
@[simp] theorem dropWrite_byte (k : Nat) : (dropWrite s).byte k = s.byte k := rfl
@[simp] theorem dropWrite_word (k : Nat) : (dropWrite s).word k = s.word k := rfl
@[simp] theorem dropWrite_melWord (u : Voice) (i : EventIndex) (n : Nat) : (dropWrite s).melWord u i n = s.melWord u i n := rfl
@[simp] theorem dropWrite_wordWritten (a : Nat) : (dropWrite s).wordWritten a = s.wordWritten a := rfl
@[simp] theorem dropWrite_eventWritten (u : Voice) (i : EventIndex) : (dropWrite s).eventWritten u i = s.eventWritten u i := rfl
@[simp] theorem dropWrite_melFetch (u : Voice) (i : EventIndex) : (dropWrite s).melFetch u i = s.melFetch u i := rfl
@[simp] theorem dropWrite_lookup (key : Key) : (dropWrite s).lookup key = s.lookup key := rfl

theorem State.setVoice_voice (v u : Voice) (r : VoiceRegs) :
    (s.setVoice v r).voice u = if u = v then r else s.voice u := by
  simp only [State.voice, State.setVoice, Vector.get_eq_getElem, Vector.getElem_set, Fin.ext_iff, eq_comm]

@[simp] theorem State.setVoice_voice_same (v : Voice) (r : VoiceRegs) : (s.setVoice v r).voice v = r := by
  simp [State.setVoice_voice]

@[simp] theorem State.setVoice_voice_other (v u : Voice) (r : VoiceRegs) (h : u ≠ v) : (s.setVoice v r).voice u = s.voice u := by
  simp [State.setVoice_voice, h]

theorem State.setPort_port (v u : Voice) (p : SamplePort) :
    (s.setPort v p).port u = if u = v then p else s.port u := by
  simp only [State.port, State.setPort, Vector.get_eq_getElem, Vector.getElem_set, Fin.ext_iff, eq_comm]

@[simp] theorem State.setPort_port_same (v : Voice) (p : SamplePort) : (s.setPort v p).port v = p := by
  simp [State.setPort_port]

@[simp] theorem State.setPort_port_other (v u : Voice) (p : SamplePort) (h : u ≠ v) : (s.setPort v p).port u = s.port u := by
  simp [State.setPort_port, h]

@[simp] theorem State.silence_port (u : Voice) : s.silence.port u = .silent := by
  fin_cases u <;> rfl

end Updates

/-- Two states with the same voices have the same registers. -/
theorem State.voices_ext (s t : State) (h : ∀ v, t.voice v = s.voice v) : t.voices = s.voices := by
  apply Vector.ext
  intro i hi
  exact h ⟨i, hi⟩

@[simp] theorem andThen_next (s : State) (f : State → Result) : andThen (.next s) f = f s := rfl

/-- `andThen` answers a next state only through a next state of its first part. -/
theorem andThen_eq_next (o : Result) (f : State → Result) (t : State) :
    andThen o f = .next t ↔ ∃ s, o = .next s ∧ f s = .next t := by
  cases o <;> simp [andThen]

end Sys2Proof.Machine
end

