-- ==== Sys2Proof/Laws/Memory.lean ====
section
/-! SUPPORT. Memory: a read after a write, writes elsewhere, the canonical form kept by every operation, and addresses that differ. -/

namespace Sys2Proof.Machine

@[simp] theorem memRead_memWrite_same (m : Memory) (a : Nat) (b : Byte) : memRead? (memWrite m a b) a = some b := by
  induction m with
  | nil => simp [memWrite, memRead?]
  | cons kc rest ih =>
    obtain ⟨k, c⟩ := kc
    rcases lt_trichotomy a k with h | h | h
    · simp [memWrite, memRead?, h]
    · simp [memWrite, memRead?, h]
    · simp [memWrite, memRead?, Nat.not_lt.mpr h.le, h.ne', h.ne, ih]

theorem memRead_memWrite_other (m : Memory) (a x : Nat) (b : Byte) (h : x ≠ a) :
    memRead? (memWrite m a b) x = memRead? m x := by
  induction m with
  | nil => simp [memWrite, memRead?, h.symm]
  | cons kc rest ih =>
    obtain ⟨k, c⟩ := kc
    rcases lt_trichotomy a k with hk | hk | hk
    · simp [memWrite, memRead?, hk, h.symm]
    · subst hk; simp [memWrite, memRead?, h.symm]
    · simp [memWrite, memRead?, Nat.not_lt.mpr hk.le, hk.ne', ih]

theorem memRead_memWrite (m : Memory) (a x : Nat) (b : Byte) :
    memRead? (memWrite m a b) x = if x = a then some b else memRead? m x := by
  split
  · next h => subst h; simp
  · next h => exact memRead_memWrite_other m a x b h

/-- A canonical memory below which the cell `a` lies stays canonical with `a` in front. -/
theorem Memory.wf_cons (a : Nat) (b : Byte) (m : Memory) :
    Memory.wf ((a, b) :: m) = true ↔ (∀ p ∈ m, a < p.1) ∧ m.wf = true := by
  induction m generalizing a b with
  | nil => simp [Memory.wf]
  | cons kc rest ih =>
    obtain ⟨k, c⟩ := kc
    simp only [Memory.wf, Bool.and_eq_true, decide_eq_true_eq, List.forall_mem_cons]
    constructor
    · rintro ⟨h, hw⟩
      exact ⟨⟨h, fun p hp => h.trans (((ih k c).mp hw).1 p hp)⟩, hw⟩
    · rintro ⟨⟨h, -⟩, hw⟩
      exact ⟨h, hw⟩

theorem mem_memWrite (m : Memory) (a : Nat) (b : Byte) (p : Nat × Byte) (h : p ∈ memWrite m a b) :
    p = (a, b) ∨ p ∈ m := by
  induction m with
  | nil => simpa [memWrite] using h
  | cons kc rest ih =>
    obtain ⟨k, c⟩ := kc
    simp only [memWrite] at h
    split at h
    · simpa using h
    · split at h
      · rcases List.mem_cons.mp h with h | h
        · exact .inl h
        · exact .inr (List.mem_cons_of_mem _ h)
      · rcases List.mem_cons.mp h with h | h
        · exact .inr (by simp [h])
        · exact (ih h).imp_right (List.mem_cons_of_mem _)

/-- A write keeps the canonical form. -/
theorem memWrite_wf (m : Memory) (a : Nat) (b : Byte) (h : m.wf = true) : (memWrite m a b).wf = true := by
  induction m with
  | nil => rfl
  | cons kc rest ih =>
    obtain ⟨k, c⟩ := kc
    obtain ⟨hlt, hw⟩ := (Memory.wf_cons k c rest).mp h
    simp only [memWrite]
    split
    · next hak =>
      refine (Memory.wf_cons a b _).mpr ⟨?_, h⟩
      intro p hp
      rcases List.mem_cons.mp hp with rfl | hp
      · exact hak
      · exact hak.trans (hlt p hp)
    · split
      · next hak => subst hak; exact (Memory.wf_cons a b _).mpr ⟨hlt, hw⟩
      · next h1 h2 =>
        refine (Memory.wf_cons k c _).mpr ⟨?_, ih hw⟩
        intro p hp
        rcases mem_memWrite rest a b p hp with rfl | hp
        · show k < a; omega
        · exact hlt p hp

/-- Storing a word keeps the canonical form. -/
theorem memWriteWord_wf (m : Memory) (a : Nat) (d : Word) (h : m.wf = true) : (memWriteWord m a d).wf = true := by
  simp only [memWriteWord]
  exact memWrite_wf _ _ _ (memWrite_wf _ _ _ (memWrite_wf _ _ _ (memWrite_wf _ _ _ h)))

theorem State.setWord_wf (s : State) (a : Nat) (d : Word) (h : s.mel.wf = true) : (s.setWord a d).mel.wf = true :=
  memWriteWord_wf s.mel a d h

/-- The memory right after reset is canonical. -/
theorem reset_mel_wf : State.reset.mel.wf = true := rfl

/-- A cell outside the stored word holds what it held. -/
theorem State.setWord_memRead_other (s : State) (a k : Nat) (d : Word) (h : k / 4 ≠ a) :
    memRead? (s.setWord a d).mel k = memRead? s.mel k := by
  have h0 : k ≠ 4 * a := by omega
  have h1 : k ≠ 4 * a + 1 := by omega
  have h2 : k ≠ 4 * a + 2 := by omega
  have h3 : k ≠ 4 * a + 3 := by omega
  simp [memWriteWord, memRead_memWrite, h0, h1, h2, h3]

/-- A cell outside the stored word reads as before. -/
theorem State.setWord_byte_other (s : State) (a k : Nat) (d : Word) (h : k / 4 ≠ a) : (s.setWord a d).byte k = s.byte k := by
  simp only [State.byte, s.setWord_memRead_other a k d h]

/-- The stored word has a value. -/
@[simp] theorem State.setWord_wordWritten_same (s : State) (a : Nat) (d : Word) : (s.setWord a d).wordWritten a = true := by
  simp [State.wordWritten, memWriteWord, memRead_memWrite]

/-- Every other word has a value if and only if it had one. -/
theorem State.setWord_wordWritten_other (s : State) (a k : Nat) (d : Word) (h : k ≠ a) :
    (s.setWord a d).wordWritten k = s.wordWritten k := by
  have hb : ∀ j, j < 4 → memRead? (s.setWord a d).mel (4 * k + j) = memRead? s.mel (4 * k + j) :=
    fun j _ => s.setWord_memRead_other a _ d (by omega)
  have h0 := hb 0 (by omega)
  rw [Nat.add_zero] at h0
  simp only [State.wordWritten, hb 3 (by omega), hb 2 (by omega), hb 1 (by omega), h0]

theorem four_bytes (d : Word) :
    d.extractLsb' 24 8 ++ d.extractLsb' 16 8 ++ d.extractLsb' 8 8 ++ d.extractLsb' 0 8 = d := by
  rw [BitVec.extractLsb'_append_extractLsb'_eq_extractLsb' (by rfl)]
  rw [BitVec.extractLsb'_append_extractLsb'_eq_extractLsb' (by rfl)]
  rw [BitVec.extractLsb'_append_extractLsb'_eq_extractLsb' (by rfl)]
  exact BitVec.extractLsb'_eq_self

/-- The stored word reads back. -/
@[simp] theorem State.setWord_word_same (s : State) (a : Nat) (d : Word) : (s.setWord a d).word a = d := by
  have e : (s.setWord a d).word a
      = d.extractLsb' 24 8 ++ d.extractLsb' 16 8 ++ d.extractLsb' 8 8 ++ d.extractLsb' 0 8 := by
    simp [State.word, State.byte, memWriteWord, memRead_memWrite]
  rw [e, four_bytes]

/-- Every other word reads as before. -/
theorem State.setWord_word_other (s : State) (a k : Nat) (d : Word) (h : k ≠ a) : (s.setWord a d).word k = s.word k := by
  have hb : ∀ j, j < 4 → (s.setWord a d).byte (4 * k + j) = s.byte (4 * k + j) := by
    intro j hj
    exact s.setWord_byte_other a _ d (by omega)
  have h0 := hb 0 (by omega)
  rw [Nat.add_zero] at h0
  simp only [State.word, hb 3 (by omega), hb 2 (by omega), hb 1 (by omega), h0]

/-- Distinct melody words have distinct addresses (`20_memory.md` R61, R64). -/
theorem melAddr_inj {v v' : Voice} {i i' : EventIndex} {n n' : Nat} (hn : n < 4) (hn' : n' < 4)
    (h : melAddr v i n = melAddr v' i' n') : v = v' ∧ i = i' ∧ n = n' := by
  have hi := i.isLt
  have hi' := i'.isLt
  unfold melAddr at h
  refine ⟨Fin.ext ?_, BitVec.eq_of_toNat_eq ?_, ?_⟩ <;> omega

/-- A stored melody word reads back as that word, and every other one as before. -/
theorem State.setWord_melWord (s : State) (v v' : Voice) (i i' : EventIndex) (n n' : Nat) (d : Word)
    (hn : n < 4) (hn' : n' < 4) :
    (s.setWord (melAddr v i n) d).melWord v' i' n' = if v' = v ∧ i' = i ∧ n' = n then d else s.melWord v' i' n' := by
  split
  · next h => obtain ⟨rfl, rfl, rfl⟩ := h; exact s.setWord_word_same _ d
  · next h => exact s.setWord_word_other _ _ d fun he => h (melAddr_inj hn' hn he)

/-- A fetch has no value exactly if the event was never written (`20_memory.md` R62). -/
theorem State.melFetch_eq_none (s : State) (v : Voice) (i : EventIndex) : s.melFetch v i = none ↔ s.eventWritten v i = false := by
  unfold State.melFetch
  split <;> simp_all

/-- A fetched event is written, and its key and duration are the three words (`20_memory.md` R62). -/
theorem State.melFetch_eq_some (s : State) (v : Voice) (i : EventIndex) (w : BitVec 96) (h : s.melFetch v i = some w) :
    s.eventWritten v i = true ∧ w.extractLsb' 0 64 = s.melWord v i 1 ++ s.melWord v i 0 ∧ w.extractLsb' 64 32 = s.melWord v i 2 := by
  unfold State.melFetch at h
  split at h
  · next hw =>
    obtain rfl := Option.some.inj h
    refine ⟨hw, BitVec.eq_of_getLsbD_eq fun j hj => ?_, BitVec.eq_of_getLsbD_eq fun j hj => ?_⟩
    · simp only [BitVec.getLsbD_extractLsb', BitVec.getLsbD_append, Nat.zero_add, hj, decide_true, Bool.true_and]
      by_cases h0 : j < 32
      · simp [h0]
      · simp [h0, show j - 32 < 32 by omega]
    · simp only [BitVec.getLsbD_extractLsb', BitVec.getLsbD_append, hj, decide_true, Bool.true_and]
      rw [if_neg (by omega), if_neg (by omega), show 64 + j - 32 - 32 = j by omega]
  · cases h

end Sys2Proof.Machine
end

