-- ==== Sys2Proof/Laws/Exec.lean ====
section
/-! SUPPORT. What the shared operations and the step can do, said once. -/

namespace Sys2Proof.Machine

theorem configWrite_drop (s t : State) (legal : Bool) (h : s.run = true ∨ legal = false) :
    configWrite s legal t = dropWrite s := if_pos h

theorem configWrite_accept (s t : State) (legal : Bool) (hr : s.run = false) (hl : legal = true) :
    configWrite s legal t = t := if_neg (by simp [hr, hl])

/-- A configuration write either drops or writes. -/
theorem configWrite_cases (s t : State) (legal : Bool) :
    configWrite s legal t = dropWrite s ∨ (s.run = false ∧ legal = true ∧ configWrite s legal t = t) := by
  by_cases h : s.run = true ∨ legal = false
  · exact .inl (configWrite_drop s t legal h)
  · rw [not_or, Bool.not_eq_true, Bool.not_eq_false] at h
    exact .inr ⟨h.1, h.2, configWrite_accept s t legal h.1 h.2⟩

/-- The `VCFG` decode of a write's data fails exactly on the reserved kind. -/
theorem vcfgOfWord_eq_none (d : Word) : vcfgOfWord d = none ↔ d.extractLsb' 0 2 = 3 := by
  have h : d.extractLsb' 0 2 = BitVec.ofBool (d.getLsbD 1) ++ BitVec.ofBool (d.getLsbD 0) := by
    apply BitVec.eq_of_getLsbD_eq
    intro i hi
    rw [BitVec.getLsbD_extractLsb', BitVec.getLsbD_append, BitVec.getLsbD_ofBool, BitVec.getLsbD_ofBool]
    interval_cases i <;> simp
  rw [h]
  unfold vcfgOfWord
  cases d.getLsbD 1 <;> cases d.getLsbD 0 <;> simp

/-- The bits of a voice configuration word as it reads (`30_encoding.md` R81). -/
theorem vcfgToWord_bits (c : Vcfg) :
    (vcfgToWord c).extractLsb' 0 2 = kindBits c.kind ∧ (vcfgToWord c).getLsbD 2 = c.metal ∧
      ∀ b : Nat, 3 ≤ b → (vcfgToWord c).getLsbD b = false := by
  obtain ⟨k, m⟩ := c
  refine ⟨by cases k <;> cases m <;> rfl, by cases k <;> cases m <;> rfl, fun b hb => ?_⟩
  by_cases h : b < 32
  · interval_cases b <;> cases k <;> cases m <;> rfl
  · exact BitVec.getLsbD_of_ge _ _ (by omega)

/-- `emitSample` touches the registers and the port of the voice in turn and nothing else. -/
theorem emitSample_frame (r : VoiceRegs) (w : Int) (g : Nat) (adv : Bool) (s : State) :
    (∀ u, u ≠ s.cur → (emitSample r w g adv s).voice u = s.voice u ∧ (emitSample r w g adv s).port u = s.port u) ∧
      (emitSample r w g adv s).port s.cur = samplePort r w g ∧
      (emitSample r w g adv s).voice s.cur = gateStep (if adv then phaseAdvance (envStep r) else envStep r) := by
  refine ⟨fun u hu => ?_, ?_, ?_⟩
  · simp [emitSample, hu]
  · simp [emitSample]
  · simp [emitSample]

/-- Every meaning answers a next state (`60_exceptions.md` R190). -/
theorem exec_next (i : Instr) (s : State) : ∃ t, exec i s = .next t := by
  cases i <;> simp only [exec]
  case wrVcfg v d =>
    unfold execWrVcfg
    split <;> exact ⟨_, rfl⟩
  all_goals exact ⟨_, rfl⟩

@[simp] theorem nextInput_nil (s : State) (h : s.pending = []) : nextInput s = (.tick, s) := by
  simp [nextInput, h]

@[simp] theorem nextInput_cons (s : State) (x : Input) (rest : List Input) (h : s.pending = x :: rest) :
    nextInput s = (x, s.setPending rest) := by
  simp [nextInput, h]

/-- The step on a queued input. -/
theorem step_cons (s : State) (x : Input) (rest : List Input) (h : s.pending = x :: rest) :
    step s = runInput x (s.setPending rest) := by
  rw [step, nextInput_cons s x rest h]

/-- The step with nothing queued is a tick. -/
theorem step_nil (s : State) (h : s.pending = []) : step s = tick s := by
  rw [step, nextInput_nil s h]
  rfl

/-- The next input, with its queue taken: nothing but the queue is touched. -/
theorem nextInput_snd (s : State) : ∃ q, (nextInput s).2 = s.setPending q := by
  rcases h : s.pending with _ | ⟨x, rest⟩
  · exact ⟨s.pending, by rw [nextInput_nil s h]; rfl⟩
  · exact ⟨rest, by rw [nextInput_cons s x rest h]⟩

@[simp] theorem applyReset_mel (s : State) : s.applyReset.mel = s.mel := rfl
@[simp] theorem applyReset_voice (s : State) (v : Voice) : s.applyReset.voice v = State.reset.voice v := rfl
@[simp] theorem applyReset_port (s : State) (v : Voice) : s.applyReset.port v = State.reset.port v := rfl
@[simp] theorem applyReset_run (s : State) : s.applyReset.run = false := rfl
@[simp] theorem applyReset_cfgerr (s : State) : s.applyReset.cfgerr = false := rfl
@[simp] theorem applyReset_readData (s : State) : s.applyReset.readData = s.readData := rfl
@[simp] theorem applyReset_ft (s : State) : s.applyReset.ft = s.ft := rfl
@[simp] theorem applyReset_pending (s : State) : s.applyReset.pending = s.pending := rfl
@[simp] theorem applyReset_cur (s : State) : s.applyReset.cur = 0 := rfl

end Sys2Proof.Machine
end

