-- ==== Sys2Proof/Laws/PerInstr.lean ====
section
/-! SUPPORT. Facts about every instruction as syntax, one lemma a constructor: its encoding lies in its own row of spec/opcode_table.json. -/

namespace Sys2Proof.Laws.InOwnRow

/-- A word of width `w` lies in a row of that width with the row's match and mask. -/
def inRow (e : Encoded) (width pattern mask : Nat) : Prop :=
  match e with
  | .event w => width = 96 ∧ w &&& BitVec.ofNat 96 mask = BitVec.ofNat 96 pattern
  | .vcfg w => width = 32 ∧ w &&& BitVec.ofNat 32 mask = BitVec.ofNat 32 pattern
  | .hostWrite w => width = 48 ∧ w &&& BitVec.ofNat 48 mask = BitVec.ofNat 48 pattern
  | .hostRead w => width = 16 ∧ w &&& BitVec.ofNat 16 mask = BitVec.ofNat 16 pattern

/-- The width, match and mask of an instruction's row in spec/opcode_table.json. -/
def row : Instr → Nat × Nat × Nat
  | .note _ _ => (96, 0, 0)
  | .pulse _ => (32, 0x0, 0x3)
  | .triangle _ => (32, 0x1, 0x3)
  | .noise => (32, 0x2, 0x7)
  | .noiseM => (32, 0x6, 0x7)
  | .vcfgRsvd _ => (32, 0x3, 0x3)
  | .start => (48, 0x000000000001, 0xFFFF00000001)
  | .ctrlNop => (48, 0x000000000000, 0xFFFF00000001)
  | .wrVcfg v _ => (48, 0x010000000000 * (v.val + 1), 0xFFFF00000000)
  | .wrDuty v _ => (48, 0x010000000000 * (v.val + 1) + 0x000100000000, 0xFFFF00000000)
  | .wrSeed v _ => (48, 0x010000000000 * (v.val + 1) + 0x000200000000, 0xFFFF00000000)
  | .wrLen v _ => (48, 0x010000000000 * (v.val + 1) + 0x000300000000, 0xFFFF00000000)
  | .wrKeyLo v _ _ => (48, 0x100000000000 * (v.val + 1), 0xF00300000000)
  | .wrKeyHi v _ _ => (48, 0x100000000000 * (v.val + 1) + 0x000100000000, 0xF00300000000)
  | .wrDur v _ _ => (48, 0x100000000000 * (v.val + 1) + 0x000200000000, 0xF00300000000)
  | .wrBad _ _ => (48, 0, 0)
  | .rd _ => (16, 0, 0)

/-- The encoding of an instruction lies in its own row of the opcode table. -/
def Statement (i : Instr) : Prop := inRow (encode i) (row i).1 (row i).2.1 (row i).2.2

theorem and_split (a m : Addr) (d k : Word) : (a ++ d) &&& (m ++ k) = (a &&& m) ++ (d &&& k) := by
  apply BitVec.eq_of_getLsbD_eq
  intro i hi
  simp only [BitVec.getLsbD_and, BitVec.getLsbD_append]
  split <;> simp

/-- A register write's word lies in its row: the address is matched whole, the data not at all. -/
theorem regRow (v : Voice) (o : Nat) (ho : o ≤ 3) (d : Word) :
    writeWord (regAddr v o) d &&& BitVec.ofNat 48 0xFFFF00000000
      = BitVec.ofNat 48 (0x010000000000 * (v.val + 1) + o * 0x000100000000) := by
  have h := and_split (BitVec.ofNat 16 (regAddr v o)) 0xFFFF#16 d 0#32
  rw [show (0xFFFF#16 ++ 0#32 : BitVec 48) = BitVec.ofNat 48 0xFFFF00000000 from rfl] at h
  rw [writeWord, h, BitVec.and_zero]
  fin_cases v <;> interval_cases o <;> rfl

/-- The address bits of a melody word: the voice field, the event index, the word (`30_encoding.md` R86). -/
theorem melAddr_fields (v : Voice) (i : EventIndex) (n : Nat) (hn : n ≤ 2) :
    BitVec.ofNat 16 (melAddr v i n) = (BitVec.ofNat 4 (v.val + 1) ++ i ++ BitVec.ofNat 2 n : BitVec 16) := by
  have hi := i.isLt
  have hv := v.isLt
  apply BitVec.eq_of_toNat_eq
  rw [melAddr_toNat v i n (by omega), BitVec.toNat_append, BitVec.toNat_append,
    ← Nat.shiftLeft_add_eq_or_of_lt i.isLt, ← Nat.shiftLeft_add_eq_or_of_lt (BitVec.isLt _)]
  simp only [Nat.shiftLeft_eq, BitVec.toNat_ofNat]
  unfold melAddr
  omega

/-- A melody write's word lies in its row: the voice field and the word number are matched, the event index and the data are not. -/
theorem melRow (v : Voice) (i : EventIndex) (n : Nat) (hn : n ≤ 2) (d : Word) :
    writeWord (melAddr v i n) d &&& BitVec.ofNat 48 0xF00300000000
      = BitVec.ofNat 48 (0x100000000000 * (v.val + 1) + n * 0x000100000000) := by
  have h := and_split (BitVec.ofNat 16 (melAddr v i n)) 0xF003#16 d 0#32
  rw [show (0xF003#16 ++ 0#32 : BitVec 48) = BitVec.ofNat 48 0xF00300000000 from rfl] at h
  have hf : BitVec.ofNat 16 (melAddr v i n) &&& 0xF003#16
      = (BitVec.ofNat 4 (v.val + 1) ++ 0#10 ++ BitVec.ofNat 2 n : BitVec 16) := by
    rw [melAddr_fields v i n hn]
    apply BitVec.eq_of_getLsbD_eq
    intro j hj
    rw [BitVec.getLsbD_and, BitVec.getLsbD_append, BitVec.getLsbD_append, BitVec.getLsbD_append, BitVec.getLsbD_append]
    fin_cases v <;> interval_cases n <;> interval_cases j <;> simp
  rw [writeWord, h, BitVec.and_zero, hf]
  fin_cases v <;> interval_cases n <;> rfl

theorem note (key : Key) (dur : Word) : Statement (.note key dur) := ⟨rfl, BitVec.and_zero⟩
theorem pulse (metal : Bool) : Statement (.pulse metal) := by cases metal <;> exact ⟨rfl, rfl⟩
theorem triangle (metal : Bool) : Statement (.triangle metal) := by cases metal <;> exact ⟨rfl, rfl⟩
theorem noise : Statement .noise := ⟨rfl, rfl⟩
theorem noiseM : Statement .noiseM := ⟨rfl, rfl⟩
theorem vcfgRsvd (metal : Bool) : Statement (.vcfgRsvd metal) := by cases metal <;> exact ⟨rfl, rfl⟩
theorem start : Statement .start := ⟨rfl, rfl⟩
theorem ctrlNop : Statement .ctrlNop := ⟨rfl, rfl⟩
theorem wrVcfg (v : Voice) (data : Word) : Statement (.wrVcfg v data) := ⟨rfl, by simpa [row] using regRow v 0 (by omega) data⟩
theorem wrDuty (v : Voice) (data : Word) : Statement (.wrDuty v data) := ⟨rfl, by simpa [row] using regRow v 1 (by omega) data⟩
theorem wrSeed (v : Voice) (data : Word) : Statement (.wrSeed v data) := ⟨rfl, by simpa [row] using regRow v 2 (by omega) data⟩
theorem wrLen (v : Voice) (data : Word) : Statement (.wrLen v data) := ⟨rfl, by simpa [row] using regRow v 3 (by omega) data⟩
theorem wrKeyLo (v : Voice) (i : EventIndex) (data : Word) : Statement (.wrKeyLo v i data) :=
  ⟨rfl, by simpa [row] using melRow v i 0 (by omega) data⟩
theorem wrKeyHi (v : Voice) (i : EventIndex) (data : Word) : Statement (.wrKeyHi v i data) :=
  ⟨rfl, by simpa [row] using melRow v i 1 (by omega) data⟩
theorem wrDur (v : Voice) (i : EventIndex) (data : Word) : Statement (.wrDur v i data) :=
  ⟨rfl, by simpa [row] using melRow v i 2 (by omega) data⟩
theorem wrBad (addr : Addr) (data : Word) : Statement (.wrBad addr data) := ⟨rfl, BitVec.and_zero⟩
theorem rd (addr : Addr) : Statement (.rd addr) := ⟨rfl, BitVec.and_zero⟩

end Sys2Proof.Laws.InOwnRow
end

