-- ==== Sys2Proof/Laws/Sample.lean ====
section
/-! SUPPORT. What the parts of a sample and of an event do to a voice's registers, said once, as one record or as the cases there are. -/

namespace Sys2Proof.Machine

theorem gate_last_iff (g : BitVec 38) : g - 1 = 0 ↔ g = 1 := by
  constructor
  · intro h
    have := congrArg (· + 1) h
    simpa using this
  · rintro rfl
    rfl

/-- The gate step as one record: `GATE` goes down by one, and a gate of 1 makes the voice Idle (`44_scheduler.md` R151). -/
theorem gateStep_eq (r : VoiceRegs) :
    gateStep r = { r with gate := r.gate - 1, st := if r.gate = 1 then .idle else r.st } := by
  unfold gateStep
  split
  · next h => rw [if_pos ((gate_last_iff _).mp h), h]
  · next h => rw [if_neg (fun h' => h ((gate_last_iff _).mpr h'))]

/-- The envelope step as one record (`40_envelope.md` R100). -/
theorem envStep_eq (r : VoiceRegs) :
    envStep r = { r with env := if r.rdone = true ∨ 882 ≤ r.env.toNat then r.env else r.env + 1
                         rdone := r.rdone || decide (882 ≤ r.env.toNat) } := by
  obtain ⟨vcfg, duty, seed, len, ptr, st, notes, gate, fcw, phase, env, rdone, lfsr⟩ := r
  unfold envStep
  cases rdone
  · by_cases h : 882 ≤ env.toNat <;> simp [h]
  · simp

/-- The amplitude as one condition (`40_envelope.md` R100). -/
theorem envAmplitude_eq (r : VoiceRegs) :
    envAmplitude r = if r.rdone = true ∨ 882 ≤ r.env.toNat then 882 else r.env.toNat := by
  unfold envAmplitude
  cases r.rdone <;> simp

theorem gateLength_eq_zero (d : Word) : gateLength d = 0 ↔ d = 0 := by
  unfold gateLength Config.samplesPerTenMs
  constructor
  · intro h
    apply BitVec.eq_of_toNat_eq
    show d.toNat = 0
    omega
  · rintro rfl
    rfl

/-- An event either starts a note (hit, duration not 0) or is skipped (`44_scheduler.md` R146). -/
theorem eventRegs_cases (r : VoiceRegs) (a : FtAnswer) (d : Word) :
    (∃ fcw, a = .hit fcw ∧ d ≠ 0 ∧ eventRegs r a d = noteStart { r with ptr := r.ptr + 1 } fcw (gateLength d)) ∨
      ((a = .miss ∨ d = 0) ∧ eventRegs r a d = { r with ptr := r.ptr + 1 }) := by
  unfold eventRegs
  cases a with
  | miss => exact .inr ⟨.inl rfl, rfl⟩
  | hit fcw =>
    by_cases h : d = 0
    · exact .inr ⟨.inr h, if_pos ((gateLength_eq_zero d).mpr h)⟩
    · exact .inl ⟨fcw, rfl, h, if_neg fun h' => h ((gateLength_eq_zero d).mp h')⟩

/-- An event moves the pointer on by one and keeps the length (`44_scheduler.md` R146). -/
theorem eventRegs_ptr_len (r : VoiceRegs) (a : FtAnswer) (d : Word) : (eventRegs r a d).ptr = r.ptr + 1 ∧ (eventRegs r a d).len = r.len := by
  rcases eventRegs_cases r a d with ⟨f, -, -, h⟩ | ⟨-, h⟩ <;> rw [h] <;> exact ⟨rfl, rfl⟩

/-- An Idle voice is Idle after an event exactly if the event is skipped (`44_scheduler.md` R146). -/
theorem eventRegs_idle_iff (r : VoiceRegs) (a : FtAnswer) (d : Word) (hi : r.st = .idle) :
    (eventRegs r a d).st = .idle ↔ a = .miss ∨ d = 0 := by
  rcases eventRegs_cases r a d with ⟨f, ha, hd, h⟩ | ⟨hs, h⟩
  · rw [h]
    exact ⟨fun h' => (nomatch h'), fun h' => h'.elim (fun hm => by rw [ha] at hm; cases hm) fun h0 => absurd h0 hd⟩
  · rw [h]
    exact ⟨fun _ => hs, fun _ => hi⟩

end Sys2Proof.Machine
end

