-- ==== Sys2Proof/Laws/Tick.lean ====
section
/-! SUPPORT. What a tick does, said once: for each voice, a function of that voice's own registers, melody and FrequencyTable. Every
claim about a tick follows from `tick_spec` without unfolding the scheduler. -/

namespace Sys2Proof.Machine

@[simp] theorem State.setVoice_setVoice (s : State) (v : Voice) (a b : VoiceRegs) :
    (s.setVoice v a).setVoice v b = s.setVoice v b := by
  simp [State.setVoice]

@[simp] theorem State.setVoice_self (s : State) (v : Voice) : s.setVoice v (s.voice v) = s := by
  simp [State.setVoice, State.voice, Vector.get_eq_getElem]

/-- The registers of a voice after the scheduler's loop with `n` events left (`consumeEvents`, on one voice's registers); none where it fetches a
never-written event. -/
def regsConsume (ev : EventIndex → Option (BitVec 96)) (ft : Key → FtAnswer) : Nat → VoiceRegs → Option VoiceRegs
  | 0, r => some { r with st := .finished }
  | n + 1, r =>
    match ev (eventIndex r.ptr) with
    | none => none
    | some w =>
      let r' := eventRegs r (ft (w.extractLsb' 0 64)) (w.extractLsb' 64 32)
      if r'.st = .idle then regsConsume ev ft n r' else some r'

/-- The registers of a voice after `Schedule`. -/
def regsSchedule (ev : EventIndex → Option (BitVec 96)) (ft : Key → FtAnswer) (r : VoiceRegs) : Option VoiceRegs :=
  if r.st = .idle then regsConsume ev ft (r.len.toNat - r.ptr.toNat) r else some r

/-- The waveform value, level, registers after the oscillator's own step, and whether the phase advances (`Mux`). -/
def regsMux (r : VoiceRegs) : VoiceRegs × Int × Nat × Bool :=
  match r.vcfg.kind, r.vcfg.metal with
  | .pulse, _ => (r, pulseWave r, Config.lvlFull, true)
  | .triangle, _ => (r, triWave r, Config.lvlFull, true)
  | .noise, false => (noiseStep r, noiseWave (noiseStep r), Config.lvlFull, false)
  | .noise, true => (noiseStep r, noiseWave (noiseStep r), Config.lvlMetal, false)

/-- The registers after an emitted sample. -/
def regsSample (r : VoiceRegs) : VoiceRegs :=
  let m := regsMux r
  gateStep (if m.2.2.2 then phaseAdvance (envStep m.1) else envStep m.1)

/-- The sample a Playing voice emits. -/
def regsPort (r : VoiceRegs) : SamplePort :=
  let m := regsMux r
  samplePort m.1 m.2.1 m.2.2.1

/-- The registers and the port of a voice that has scheduled, after the rest of its `VoiceTick`. -/
def emitNext (q : VoiceRegs) : VoiceRegs × SamplePort :=
  if q.st = .playing then (regsSample q, regsPort q) else (q, .silent)

/-- The registers and the port of a voice after its `VoiceTick`; none where it fetches a never-written event. -/
def voiceNext (ev : EventIndex → Option (BitVec 96)) (ft : Key → FtAnswer) (r : VoiceRegs) : Option (VoiceRegs × SamplePort) :=
  (regsSchedule ev ft r).map emitNext

/-- Go on with a value, or refuse the run for want of one. -/
def orRefuse {α : Type} (o : Option α) (f : α → State) : Result :=
  match o with
  | some x => .next (f x)
  | none => .refused .unwrittenEvent

theorem consumeEvents_eq (n : Nat) (s : State) :
    consumeEvents n s = orRefuse (regsConsume (s.melFetch s.cur) s.lookup n (s.voice s.cur)) (s.setVoice s.cur) := by
  induction n generalizing s with
  | zero => rfl
  | succ n ih =>
    simp only [consumeEvents, regsConsume, fetchEvent]
    cases hf : s.melFetch s.cur (eventIndex (s.voice s.cur).ptr) with
    | none => rfl
    | some w =>
      have hx : exec (decode (.event w)) s = .next (s.setVoice s.cur
          (eventRegs (s.voice s.cur) (s.lookup (w.extractLsb' 0 64)) (w.extractLsb' 64 32))) := rfl
      simp only [Option.map_some, hx, andThen_next, State.setVoice_cur, State.setVoice_voice_same]
      split
      · have hev : ∀ r, (s.setVoice s.cur r).melFetch s.cur = s.melFetch s.cur := fun _ => rfl
        have hft : ∀ r, (s.setVoice s.cur r).lookup = s.lookup := fun _ => rfl
        have hset : ∀ r, (s.setVoice s.cur r).setVoice s.cur = s.setVoice s.cur := fun _ => by
          funext
          exact State.setVoice_setVoice ..
        rw [ih, State.setVoice_cur, State.setVoice_voice_same, hev, hft, hset]
      · rfl

theorem schedule_eq (s : State) :
    schedule s = orRefuse (regsSchedule (s.melFetch s.cur) s.lookup (s.voice s.cur)) (s.setVoice s.cur) := by
  simp only [schedule, regsSchedule]
  split
  · exact consumeEvents_eq _ s
  · simp [orRefuse]

/-- The operation that a configuration register selects (`30_encoding.md` R81). -/
theorem decode_vcfgToWord (c : Vcfg) :
    decode (.vcfg (vcfgToWord c)) = match c.kind, c.metal with
      | .pulse, m => .pulse m
      | .triangle, m => .triangle m
      | .noise, false => .noise
      | .noise, true => .noiseM := by
  rcases c with ⟨k, m⟩
  cases k <;> cases m <;> rfl

theorem exec_sampleOp (s : State) :
    exec (sampleOp s) s = .next ((s.setVoice s.cur (regsSample (s.voice s.cur))).setPort s.cur (regsPort (s.voice s.cur))) := by
  obtain ⟨⟨k, m⟩, hc⟩ : ∃ c, (s.voice s.cur).vcfg = c := ⟨_, rfl⟩
  cases k <;> cases m <;> simp only [sampleOp, decode_vcfgToWord, regsSample, regsPort, regsMux, hc] <;> rfl

/-- One voice's turn: its registers and its port, and nothing else; or the refusal of the run. -/
theorem voiceTick_eq (s : State) :
    voiceTick s = orRefuse (voiceNext (s.melFetch s.cur) s.lookup (s.voice s.cur))
      (fun x => (s.setVoice s.cur x.1).setPort s.cur x.2) := by
  rw [voiceTick, schedule_eq, voiceNext]
  cases regsSchedule (s.melFetch s.cur) s.lookup (s.voice s.cur) with
  | none => rfl
  | some q =>
    simp only [orRefuse, andThen_next, Option.map_some, emitOrSilent, exec_sampleOp, State.setVoice_cur, State.setVoice_voice_same,
      State.setVoice_setVoice, emitNext]
    split <;> rfl

/-- What a tick leaves as it was. -/
structure SameOutsideVoices (s t : State) : Prop where
  run : t.run = s.run
  cfgerr : t.cfgerr = s.cfgerr
  mel : t.mel = s.mel
  readData : t.readData = s.readData
  ft : t.ft = s.ft
  pending : t.pending = s.pending

theorem SameOutsideVoices.melFetch {s t : State} (h : SameOutsideVoices s t) : t.melFetch = s.melFetch := by
  funext v i
  have hw : t.eventWritten v i = s.eventWritten v i := by simp only [State.eventWritten, State.wordWritten, h.mel]
  have hm : ∀ n, t.melWord v i n = s.melWord v i n := fun n => by simp only [State.melWord, State.word, State.byte, h.mel]
  simp only [State.melFetch, hw, hm]

theorem SameOutsideVoices.lookup {s t : State} (h : SameOutsideVoices s t) : t.lookup = s.lookup := by
  funext key
  simp only [State.lookup, h.ft]

/-- The listed voices' turns, each once. Either every listed voice takes its step from its own registers and every other keeps them, or some listed
voice fetches a never-written event and the run is refused. -/
theorem runVoices_spec (vs : List Voice) (hvs : vs.Nodup) (s : State) :
    (∃ t, runVoices vs s = .next t ∧ SameOutsideVoices s t ∧
      ∀ v, if v ∈ vs then voiceNext (s.melFetch v) s.lookup (s.voice v) = some (t.voice v, t.port v)
        else t.voice v = s.voice v ∧ t.port v = s.port v) ∨
    (runVoices vs s = .refused .unwrittenEvent ∧ ∃ v ∈ vs, voiceNext (s.melFetch v) s.lookup (s.voice v) = none) := by
  induction vs generalizing s with
  | nil => exact .inl ⟨s, rfl, ⟨rfl, rfl, rfl, rfl, rfl, rfl⟩, by simp⟩
  | cons v vs ih =>
    obtain ⟨hv, hvs⟩ := List.nodup_cons.mp hvs
    have ht : runVoices (v :: vs) s = andThen (voiceTick (s.setCur v)) (runVoices vs) := rfl
    have hf : (s.setCur v).melFetch v = s.melFetch v := rfl
    have hl : (s.setCur v).lookup = s.lookup := rfl
    rw [ht, voiceTick_eq, State.setCur_cur, State.setCur_voice, hf, hl]
    cases hx : voiceNext (s.melFetch v) s.lookup (s.voice v) with
    | none => exact .inr ⟨rfl, v, List.mem_cons_self, hx⟩
    | some x =>
      simp only [orRefuse, andThen_next]
      generalize hs1 : ((s.setCur v).setVoice v x.1).setPort v x.2 = s1
      have same : SameOutsideVoices s s1 := by subst hs1; exact ⟨rfl, rfl, rfl, rfl, rfl, rfl⟩
      have voice1 : ∀ u, s1.voice u = if u = v then x.1 else s.voice u := by
        intro u; subst hs1; simp only [State.setPort_voice, State.setVoice_voice, State.setCur_voice]
      have port1 : ∀ u, s1.port u = if u = v then x.2 else s.port u := by
        intro u; subst hs1; simp only [State.setPort_port, State.setVoice_port, State.setCur_port]
      have other : ∀ u, u ≠ v → s1.voice u = s.voice u := fun u hu => by rw [voice1, if_neg hu]
      rcases ih hvs s1 with ⟨t, ht, hsame, hvoice⟩ | ⟨hr, u, hu, hn⟩
      · refine .inl ⟨t, ht, ⟨hsame.run.trans same.run, hsame.cfgerr.trans same.cfgerr, hsame.mel.trans same.mel,
          hsame.readData.trans same.readData, hsame.ft.trans same.ft, hsame.pending.trans same.pending⟩, fun u => ?_⟩
        have hu := hvoice u
        rw [same.melFetch, same.lookup] at hu
        by_cases h : u = v
        · subst h
          rw [if_neg hv, voice1, port1, if_pos rfl, if_pos rfl] at hu
          simp [hx, hu.1, hu.2]
        · rw [voice1, port1, if_neg h, if_neg h] at hu
          simpa [h] using hu
      · refine .inr ⟨hr, u, List.mem_cons_of_mem _ hu, ?_⟩
        have huv : u ≠ v := fun h => hv (h ▸ hu)
        rw [← same.melFetch, ← same.lookup, ← other u huv]
        exact hn

theorem mem_allVoices (v : Voice) : v ∈ ([0, 1, 2, 3, 4] : List Voice) := by
  fin_cases v <;> decide

/-- A tick with `RUN = 1`: every voice takes its step from its own registers, melody and table and nothing else changes, or some voice fetches a
never-written event and the run is refused. -/
theorem tick_spec (s : State) (hrun : s.run = true) :
    (∃ t, tick s = .next t ∧ SameOutsideVoices s t ∧ t.cur = s.cur ∧
      ∀ v, voiceNext (s.melFetch v) s.lookup (s.voice v) = some (t.voice v, t.port v)) ∨
    (tick s = .refused .unwrittenEvent ∧ ∃ v, voiceNext (s.melFetch v) s.lookup (s.voice v) = none) := by
  rcases runVoices_spec [0, 1, 2, 3, 4] (by decide) s with ⟨t, ht, hsame, hvoice⟩ | ⟨hr, v, -, hn⟩
  · refine .inl ⟨t.setCur s.cur, by simp [tick, hrun, ht],
      ⟨hsame.run, hsame.cfgerr, hsame.mel, hsame.readData, hsame.ft, hsame.pending⟩, rfl, fun v => ?_⟩
    simpa [mem_allVoices v] using hvoice v
  · exact .inr ⟨by simp [tick, hrun, hr, andThen], v, hn⟩

/-- A tick with `RUN = 0` only silences the ports. -/
theorem tick_idle (s : State) (hrun : s.run = false) : tick s = .next s.silence := by
  simp [tick, hrun]

end Sys2Proof.Machine
end

