-- ==== Sys2Proof/Tests/Slice0.lean ====
section
/-! SUPPORT. Tests of the definitions against words and values that spec/ writes out (`95_test_vectors.md`, named V or P below, and the
encodings of `30_encoding.md`), and for every obligation with hypotheses a theorem that concrete data meet them. -/

namespace Sys2Proof.Tests

open Sys2Proof.Machine

/-! ## Helpers -/

/-- Something read off the next state, none at a stop. -/
def after {α : Type} (o : Result) (f : State → α) : Option α :=
  match o with
  | .next s => some (f s)
  | .fault _ => none
  | .refused _ => none

/-- The table FT_B of `95_test_vectors.md`, and misses for the keys its programs use. -/
def ftB : List (Key × FtAnswer) :=
  [(0x3441, .hit 0x028DDFB9), (0x3443, .hit 0x01800000), (0x58, .hit 0x10000000), (0x5A, .hit 0),
    (0x004E574F4E4B4E55, .miss), (0, .miss)]

/-- One melody event, as a host writes it. -/
def store (s : State) (v : Voice) (i : EventIndex) (key : Key) (dur : Word) : State :=
  ((s.setWord (melAddr v i 0) (key.extractLsb' 0 32)).setWord (melAddr v i 1) (key.extractLsb' 32 32)).setWord (melAddr v i 2) dur

/-- The reset state with FT_B. -/
def fresh : State := State.reset.setFt ftB

/-- The reset state with FT_B, running. -/
def started : State := fresh.setRun true

/-- Program P3 just after START. -/
def songP3 : State :=
  let s := store (store (store (store started 1 0 0x3441 0) 1 1 0x004E574F4E4B4E55 10) 1 2 0 5) 1 3 0x5A 21
  let s := store (store (store s 2 0 0x004E574F4E4B4E55 1000) 2 1 0x3441 0) 3 0 0x5A 21
  ((s.setVoice 1 { s.voice 1 with len := 4 }).setVoice 2 { s.voice 2 with len := 2 }).setVoice 3 { s.voice 3 with len := 1 }

/-- The same, with another duty in voice 0. -/
def songP3other : State := songP3.setVoice 0 { songP3.voice 0 with duty := 7 }

/-- A running machine whose voice 0 has one event, of which only the key is written. -/
def halfLoaded : State :=
  let s := (started.setWord (melAddr 0 0 0) 0x58).setWord (melAddr 0 0 1) 0
  s.setVoice 0 { s.voice 0 with len := 1 }

/-- A running machine whose voice 0, whose turn it is, is Playing with the given registers. -/
def playing (c : Vcfg) (duty : Word) (phase : Word) (env : BitVec 10) (gate : BitVec 38) (lfsr : Word) : State :=
  started.setVoice 0 { started.voice 0 with
    vcfg := c, duty := duty, phase := phase, env := env, gate := gate, lfsr := lfsr, fcw := 0x10000000
    st := .playing, len := 1, ptr := 1, notes := 1 }

/-- Voice 0 at sample 0 of a note of 44 samples. -/
def noteBegun : State := playing { kind := .pulse, metal := false } 0x20000000 0 0 44 1

/-- Voice 0 at its note's last sample. -/
def lastSample : State := playing { kind := .pulse, metal := false } 0x20000000 0 43 1 1

/-- Every voice Finished, in a running machine. -/
def allFinished : State :=
  ((((started.setVoice 0 { started.voice 0 with st := .finished }).setVoice 1 { started.voice 1 with st := .finished }).setVoice 2
    { started.voice 2 with st := .finished }).setVoice 3 { started.voice 3 with st := .finished }).setVoice 4
    { started.voice 4 with st := .finished }

/-! ## WellFormed -/

theorem smoke_wf_refuses_ctrl : (Instr.wrBad 0x0000 0).wellFormed = false := by decide
theorem smoke_wf_refuses_cfg : (Instr.wrBad 0x0503 0).wellFormed = false := by decide
theorem smoke_wf_refuses_mel : (Instr.wrBad 0x5FFE 0).wellFormed = false := by decide
theorem smoke_wf_admits : (Instr.wrBad 0x0104 0).wellFormed = true ∧ (Instr.wrBad 0x5FFF 0).wellFormed = true := by decide

/-! ## Decode: words written out from `30_encoding.md` R80, R81, R84, R86 and the programs of `95_test_vectors.md` -/

/-- P1, event 2. -/
theorem test_decode_note : decodeTableWord 96 0x000000C8_00000000_00003443 = some (.note 0x3443 200) := by decide
/-- P1, event 1: both key words. -/
theorem test_decode_note_keyHi : decodeTableWord 96 0x00000032_004E574F_4E4B4E55 = some (.note 0x004E574F4E4B4E55 50) := by decide
/-- R81: KIND in bits 1:0, METAL in bit 2, the rest ignored. -/
theorem test_decode_pulse : decodeTableWord 32 0xFFFFFFFC = some (.pulse true) := by decide
/-- V51: 0xFFFFFFF9 is Triangle, METAL 0. -/
theorem test_decode_triangle : decodeTableWord 32 0xFFFFFFF9 = some (.triangle false) := by decide
theorem test_decode_noise : decodeTableWord 32 0x00000002 = some .noise := by decide
/-- V51: 0x00000006 is Noise, METAL 1. -/
theorem test_decode_noiseM : decodeTableWord 32 0x00000006 = some .noiseM := by decide
theorem test_decode_vcfgRsvd : decodeTableWord 32 0x00000003 = some (.vcfgRsvd false) := by decide
/-- V51: the other bits of a CTRL write are ignored. -/
theorem test_decode_start : decodeTableWord 48 0x0000_FFFFFFFF = some .start := by decide
theorem test_decode_ctrlNop : decodeTableWord 48 0x0000_FFFFFFFE = some .ctrlNop := by decide
/-- P2. -/
theorem test_decode_wrVcfg : decodeTableWord 48 0x0500_00000006 = some (.wrVcfg 4 6) := by decide
/-- V51. -/
theorem test_decode_wrDuty : decodeTableWord 48 0x0301_00000001 = some (.wrDuty 2 1) := by decide
/-- P2. -/
theorem test_decode_wrSeed : decodeTableWord 48 0x0502_00000000 = some (.wrSeed 4 0) := by decide
/-- P1. -/
theorem test_decode_wrLen : decodeTableWord 48 0x0103_00000003 = some (.wrLen 0 3) := by decide
/-- P1. -/
theorem test_decode_wrKeyLo : decodeTableWord 48 0x1004_4E4B4E55 = some (.wrKeyLo 0 1 0x4E4B4E55) := by decide
/-- P3. -/
theorem test_decode_wrKeyHi : decodeTableWord 48 0x2005_004E574F = some (.wrKeyHi 1 1 0x004E574F) := by decide
/-- The last melody word there is. -/
theorem test_decode_wrDur : decodeTableWord 48 0x5FFE_00000015 = some (.wrDur 4 1023 0x15) := by decide
/-- V52: STATUS, a read-only register, a reserved word; and the first address past the last voice. -/
theorem test_decode_wrBad :
    decodeTableWord 48 0x0001_00000000 = some (.wrBad 0x0001 0) ∧ decodeTableWord 48 0x0104_00000005 = some (.wrBad 0x0104 5) ∧
      decodeTableWord 48 0x1003_00000000 = some (.wrBad 0x1003 0) ∧ decodeTableWord 48 0x6000_00000000 = some (.wrBad 0x6000 0) := by
  decide
/-- P1. -/
theorem test_decode_rd : decodeTableWord 16 0x0105 = some (.rd 0x0105) := by decide
theorem test_decode_refuses_width : decodeBits 40 0 = .error (.noFormatOfWidth 40) := by decide

/-! ## Reset -/

/-- V50, the values as read. -/
theorem test_reset_reads :
    hostRead State.reset 0x0001 = 0 ∧ hostRead State.reset 0x0101 = 0x20000000 ∧ hostRead State.reset 0x0201 = 0x40000000 ∧
      hostRead State.reset 0x0400 = 1 ∧ hostRead State.reset 0x0500 = 2 ∧ hostRead State.reset 0x0502 = 1 ∧
      hostRead State.reset 0x1003 = 0 := by decide

/-! ## The melody event -/

/-- P1, tick 0, before the sample. -/
theorem test_note_hit :
    after (exec (.note 0x3441 100) started)
      (fun s => ((s.voice 0).fcw, (s.voice 0).gate, (s.voice 0).ptr, (s.voice 0).notes, (s.voice 0).st)) =
      some (0x028DDFB9, 4410, 1, 1, .playing) := by decide
/-- V42: ("A4", 0) and ("UNKNOWN", 0) move the pointer only. -/
theorem test_note_skips :
    after (exec (.note 0x3441 0) started) (fun s => s.voice 0) = some { started.voice 0 with ptr := 1 } ∧
      after (exec (.note 0x004E574F4E4B4E55 0) started) (fun s => s.voice 0) = some { started.voice 0 with ptr := 1 } := by decide

/-! ## The per-sample operations -/

/-- V22, k = 2: low on reaching DUTY; V10: ENV 2 to 3. -/
theorem test_pulse_sample :
    after (exec (.pulse false) (playing { kind := .pulse, metal := false } 0x20000000 0x20000000 2 42 1))
      (fun s => ((s.port 0).data.toInt, (s.voice 0).phase, (s.voice 0).env, (s.voice 0).gate)) =
      some (-10737418240, 0x30000000, 3, 41) := by decide
/-- V20: the comparison is unsigned. -/
theorem test_pulse_unsigned : pulseWave { started.voice 0 with phase := 0x80000000, duty := 0xFFFFFFFF } = 1073741824 := by decide
/-- V27, k = 13. -/
theorem test_triangle_sample :
    after (exec (.triangle false) (playing { kind := .triangle, metal := false } 0x80000000 0xD0000000 13 31 1))
      (fun s => ((s.port 0).data.toInt, (s.voice 0).phase)) = some (-17448304640, 0xE0000000) := by decide
/-- V26: the peak. -/
theorem test_triangle_peak : triWave { started.voice 0 with phase := 0x80000000 } = 1073741824 := by decide
/-- V32, k = 2, METAL = 0; the phase stays. -/
theorem test_noise_sample :
    after (exec .noise (playing { kind := .noise, metal := false } 0x80000000 0 2 42 0x00040825))
      (fun s => ((s.port 0).data.toInt, (s.voice 0).lfsr, (s.voice 0).phase)) = some (-10737418240, 0x08042A16, 0) := by decide
/-- V31. -/
theorem test_xorShift : xorShift 0xDEADBEEF = 0xFEDC374C := by decide
/-- V32, k = 2, METAL = 1. -/
theorem test_noiseM_sample :
    after (exec .noiseM (playing { kind := .noise, metal := true } 0x80000000 0 2 42 0x00040825)) (fun s => (s.port 0).data.toInt) =
      some (-8589934592) := by decide
/-- V43, tick 4409: the last sample makes the voice Idle. -/
theorem test_sample_last :
    after (exec (.pulse false) lastSample) (fun s => ((s.port 0).last, (s.voice 0).st, (s.voice 0).gate)) =
      some (true, .idle, 0) := by decide
/-- V10, k = 881 and 882. -/
theorem test_envelope_end :
    envStep { started.voice 0 with env := 881 } = { started.voice 0 with env := 882 } ∧
      envStep { started.voice 0 with env := 882 } = { started.voice 0 with env := 882, rdone := true } := by decide

/-! ## Host operations -/

/-- V51. -/
theorem test_start : after (exec .start State.reset) State.statusWord = some 0x00020000 := by decide
/-- V52. -/
theorem test_start_twice : after (exec .start started) State.statusWord = some 0x00060000 := by decide
theorem test_ctrlNop : after (exec .ctrlNop started) State.statusWord = some 0x00020000 := by decide
/-- V51 and V52. -/
theorem test_wrVcfg :
    after (exec (.wrVcfg 2 0xFFFFFFF9) State.reset) (fun s => hostRead s 0x0300) = some 1 ∧
      after (exec (.wrVcfg 2 3) State.reset) (fun s => (hostRead s 0x0300, s.statusWord)) = some (0, 0x00040000) := by decide
theorem test_wrDuty :
    after (exec (.wrDuty 2 1) State.reset) (fun s => hostRead s 0x0301) = some 1 ∧
      after (exec (.wrDuty 0 0) State.reset) (fun s => (hostRead s 0x0101, s.statusWord)) = some (0x20000000, 0x00040000) := by decide
theorem test_wrSeed :
    after (exec (.wrSeed 4 0) State.reset) (fun s => (hostRead s 0x0502, s.statusWord)) = some (1, 0x00040000) ∧
      after (exec (.wrSeed 0 7) started) (fun s => (hostRead s 0x0102, s.statusWord)) = some (1, 0x00060000) := by decide
theorem test_wrLen :
    after (exec (.wrLen 2 0x400) State.reset) (fun s => hostRead s 0x0303) = some 0x400 ∧
      after (exec (.wrLen 2 0x80000001) State.reset) (fun s => (hostRead s 0x0303, s.statusWord)) = some (0, 0x00040000) := by decide
/-- P4: a melody word is read back; in a run the write is dropped. -/
theorem test_wrKeyLo : after (exec (.wrKeyLo 0 0 0x58) State.reset) (fun s => hostRead s 0x1000) = some 0x58 := by decide
theorem test_wrKeyHi : after (exec (.wrKeyHi 1 1 0x004E574F) State.reset) (fun s => hostRead s 0x2005) = some 0x004E574F := by decide
theorem test_wrDur :
    after (exec (.wrDur 0 0 1) State.reset) (fun s => hostRead s 0x1002) = some 1 ∧
      after (exec (.wrDur 1 3 9) songP3) (fun s => (hostRead s 0x200E, s.statusWord)) = some (21, 0x00060000) := by decide
theorem test_wrBad : after (exec (.wrBad 0x0104 5) State.reset) (fun s => (hostRead s 0x0104, s.statusWord)) = some (0, 0x00040000) := by
  decide
/-- P2: a metallic noise voice's VCFG reads 6; P3, tick 882: VSTAT reads 5, RDONE in bit 2 (log 17). -/
theorem test_rd_vcfg_vstat :
    hostRead (playing { kind := .noise, metal := true } 1 0 0 1 1) 0x0100 = 6 ∧
      vstatWord { noteBegun.voice 0 with env := 882, rdone := true } = 5 := by decide
theorem test_rd : after (exec (.rd 0x0400) State.reset) State.readData = some (some 1) := by decide
theorem test_vcfgRsvd : after (exec (.vcfgRsvd false) State.reset) State.statusWord = some 0x00040000 := by decide

/-! ## Steps -/

/-- P3, tick 0: four events in one tick, an all-skipped melody, two first samples. -/
theorem test_tick_p3 :
    after (step songP3) (fun s => (s.statusWord, (s.voice 1).ptr, (s.voice 1).gate, (s.voice 2).ptr, s.port 1, s.port 2)) =
      some (0x00020A15, 4, 925, 2, { valid := true, data := 0, first := true, last := false }, .silent) := by decide
/-- P4: the melody outlives reset, the registers do not. -/
theorem test_reset_keeps_melody :
    after (step (songP3.setPending [.reset])) (fun s => (hostRead s 0x200E, hostRead s 0x0203, s.run)) = some (21, 0, false) := by decide
/-- 60_exceptions.md R204: the fetch of an event whose DUR was never written is refused, and nothing else of the same run is. -/
theorem test_unwritten_event_refused :
    step halfLoaded = .refused .unwrittenEvent ∧ after (step (store halfLoaded 0 0 0x58 1)) (fun s => (s.voice 0).gate) = some 43 :=
  ⟨rfl, by decide⟩
/-- A placed event is the first thing the next step runs. -/
theorem test_place_event :
    after (step (State.reset.withFetchWord 96 0x00000064_00000000_00003441)) (fun s => ((s.voice 0).notes, (s.voice 0).gate)) =
      some (1, 4409) := by decide
/-- So is a placed configuration word. -/
theorem test_place_vcfg : after (step (State.reset.withFetchWord 32 6)) (fun s => (s.voice 0).lfsr) = some 0x201 := by decide
/-- So are a placed write and a placed read. -/
theorem test_place_host :
    after (step (State.reset.withFetchWord 48 0x0000_00000001)) State.run = some true ∧
      after (step (State.reset.withFetchWord 16 0x0400)) State.readData = some (some 1) := by decide

/-! ## The hypotheses of the obligations can be met -/

theorem witness_DecodeEncodeRoundTrip : (Instr.wrBad 0x0001 0).wellFormed = true ∧ (Instr.wrDur 4 1023 0).wellFormed = true := by decide

/-- Each row's boundary address; for the last row an address that meets its three hypotheses. -/
theorem witness_HostWriteDecodeRows :
    decode (.hostWrite (0x0000#16 ++ 0#32)) = .ctrlNop ∧
      decode (.hostWrite (0x0100#16 ++ 0#32)) = .wrVcfg 0 0 ∧ decode (.hostWrite (0x0500#16 ++ 0#32)) = .wrVcfg 4 0 ∧
      decode (.hostWrite (0x0501#16 ++ 0#32)) = .wrDuty 4 0 ∧ decode (.hostWrite (0x0502#16 ++ 0#32)) = .wrSeed 4 0 ∧
      decode (.hostWrite (0x0503#16 ++ 0#32)) = .wrLen 4 0 ∧
      decode (.hostWrite (0x1000#16 ++ 0#32)) = .wrKeyLo 0 0 0 ∧ decode (.hostWrite (0x5FFC#16 ++ 0#32)) = .wrKeyLo 4 1023 0 ∧
      decode (.hostWrite (0x5FFD#16 ++ 0#32)) = .wrKeyHi 4 1023 0 ∧ decode (.hostWrite (0x5FFE#16 ++ 0#32)) = .wrDur 4 1023 0 ∧
      decode (.hostWrite (0x0504#16 ++ 0#32)) = .wrBad 0x0504 0 ∧ decode (.hostWrite (0x5FFF#16 ++ 0#32)) = .wrBad 0x5FFF 0 := by decide

/-- Also the hypotheses of `BadWriteOnlySetsCfgerr`. -/
theorem witness_HostWriteDecodeRows_bad :
    (0x0504 : Addr) ≠ 0 ∧ (∀ (v : Voice) (o : Nat), o ≤ 3 → (0x0504 : Addr).toNat ≠ 0x0100 * (v.val + 1) + o) ∧
      ∀ (v : Voice) (i : EventIndex) (n : Nat), n ≤ 2 → (0x0504 : Addr).toNat ≠ 0x1000 * (v.val + 1) + 4 * i.toNat + n := by
  refine ⟨by decide, fun v o ho h => ?_, fun v i n _ h => ?_⟩
  · have h' : 0x0504 = 0x0100 * (v.val + 1) + o := h
    omega
  · have h' : 0x0504 = 0x1000 * (v.val + 1) + 4 * i.toNat + n := h
    omega

theorem witness_StepRunsHostOperation :
    (State.reset.setPending [.write 1]).pending = .write 1 :: [] ∧ (State.reset.setPending [.read 1]).pending = .read 1 :: [] := by decide

theorem witness_StepTakesTick : (State.reset.setPending [.tick]).pending = .tick :: [] ∧ State.reset.pending = [] := by decide

/-- A turn that ends Playing and one that does not. -/
theorem witness_VoiceTickRunsDecodedOperation :
    (∃ s1, schedule (songP3.setCur 1) = .next s1 ∧ (s1.voice s1.cur).st = .playing) ∧
      ∃ s1, schedule (songP3.setCur 2) = .next s1 ∧ (s1.voice s1.cur).st = .finished :=
  ⟨⟨_, rfl, rfl⟩, _, rfl, rfl⟩

/-- A step that completes, one that is refused, and a loaded machine. -/
theorem witness_StepRefusesOnlyUnwrittenFetch :
    (∃ t, step songP3 = .next t) ∧ (halfLoaded.pending = [] ∧ halfLoaded.run = true ∧ FetchesUnwritten halfLoaded 0 0) ∧ Loaded songP3 :=
  ⟨⟨_, rfl⟩, by decide, by decide⟩

theorem witness_VoiceOrderDoesNotMatter : [4, 3, 2, 1, 0].Perm ([0, 1, 2, 3, 4] : List Voice) ∧ songP3.run = true := by decide

/-- The duty preset of the third and of the last voice. -/
theorem witness_ResetValues : (State.reset.voice 2).duty = 0x80000000 ∧ (State.reset.voice 4).duty = 0x80000000 := by decide

theorem witness_ResetInputForcesResetState : (songP3.setPending [.reset, .tick]).pending = .reset :: [.tick] := by decide

theorem witness_CtrlWriteStartsOrDoesNothing :
    (0xFFFFFFFF : Word).getLsbD 0 = true ∧ (0xFFFFFFFE : Word).getLsbD 0 = false ∧ State.reset.run = false ∧ songP3.run = true := by decide

theorem witness_VcfgWriteAccepted : State.reset.run = false ∧ (0xFFFFFFF9 : Word).extractLsb' 0 2 ≠ 3 := by decide

/-- LEN's boundary data, 0 and 1024. -/
theorem witness_ParameterWritesAccepted :
    State.reset.run = false ∧ (1 : Word) ≠ 0 ∧ (0 : Word).toNat ≤ 1024 ∧ (1024 : Word).toNat ≤ 1024 := by decide

theorem witness_MelodyWritesStore : State.reset.run = false := by decide

/-- The nearest other word of the same event, and the same word of another voice. -/
theorem witness_MelodyWritesLeaveOtherWords :
    (∃ t, exec (.wrKeyLo 0 0 7) fresh = .next t) ∧ (∃ t, exec (.wrKeyHi 0 0 7) fresh = .next t) ∧
      (∃ t, exec (.wrDur 0 0 7) fresh = .next t) ∧ ((0, 0, 1) : Voice × EventIndex × Nat) ≠ (0, 0, 0) ∧
      ((1, 0, 1) : Voice × EventIndex × Nat) ≠ (0, 0, 1) ∧ ((0, 1, 2) : Voice × EventIndex × Nat) ≠ (0, 0, 2) :=
  ⟨⟨_, rfl⟩, ⟨_, rfl⟩, ⟨_, rfl⟩, by decide, by decide, by decide⟩

theorem witness_PhaseLockDropsWrites : started.run = true := by decide

/-- One datum for each clause; LEN's is the first illegal one. -/
theorem witness_ValueFilterDropsWrites :
    (3 : Word).extractLsb' 0 2 = 3 ∧ (0 : Word) = 0 ∧ 1024 < (1025 : Word).toNat := by decide

theorem witness_ReservedVcfgWordIsDropped : (0xFFFFFFFF : Word).extractLsb' 0 2 = 3 := by decide

theorem witness_CfgerrHasOnlyListedCauses : (∃ t, exec .start started = .next t ∧ t.cfgerr = true) ∧ ∃ t, tick songP3 = .next t :=
  ⟨⟨_, rfl, rfl⟩, _, rfl⟩

/-- An address of each row, at its last voice; and unmapped ones at the edges. -/
theorem witness_ReadReturnsTable :
    (0x0506 : Addr).toNat = 0x0100 * ((4 : Voice).val + 1) + 6 ∧
      (0x5FFE : Addr).toNat = 0x1000 * ((4 : Voice).val + 1) + 4 * (1023 : EventIndex).toNat + 2 ∧
      1 < (0x0507 : Addr).toNat ∧ hostRead songP3 0x0507 = 0 ∧ hostRead songP3 0x0002 = 0 ∧ hostRead songP3 0x5FFF = 0 ∧
      hostRead songP3 0x6000 = 0 ∧ hostRead songP3 0x0203 = 4 ∧ hostRead songP3 0x2008 = 0 ∧ hostRead songP3 0x200E = 21 := by decide

theorem witness_ReadReturnsTable_unmapped :
    1 < (0x0507 : Addr).toNat ∧ (∀ (v : Voice) (o : Nat), o ≤ 6 → (0x0507 : Addr).toNat ≠ 0x0100 * (v.val + 1) + o) ∧
      ∀ (v : Voice) (k : EventIndex) (n : Nat), n ≤ 2 → (0x0507 : Addr).toNat ≠ 0x1000 * (v.val + 1) + 4 * k.toNat + n := by
  refine ⟨by decide, fun v o ho h => ?_, fun v i n _ h => ?_⟩
  · have h' : 0x0507 = 0x0100 * (v.val + 1) + o := h
    omega
  · have h' : 0x0507 = 0x1000 * (v.val + 1) + 4 * i.toNat + n := h
    omega

/-- The reserved bits at the edges of their ranges, in a state whose other bits are not all 0. -/
theorem witness_StatusFields :
    allFinished.statusWord = 0x0003001F ∧ ∀ b ∈ [5, 7, 13, 15, 19, 31], allFinished.statusWord.getLsbD b = false := by decide

/-- The hypotheses of each clause together, at a boundary datum: melody word 2 with 0, VCFG, DUTY with 1, LEN with 1024. -/
theorem witness_ReadAfterWriteReturnsData :
    let s (a : Nat) (d : Word) : State := fresh.setPending [.write (BitVec.ofNat 16 a ++ d), .read (BitVec.ofNat 16 a)]
    (∀ p ∈ [(melAddr 4 1023 2, (0 : Word)), (regAddr 4 0, 0xFFFFFFFE), (regAddr 4 1, 1), (regAddr 4 3, 1024)],
        (s p.1 p.2).run = false ∧
          (s p.1 p.2).pending = .write (BitVec.ofNat 16 p.1 ++ p.2) :: .read (BitVec.ofNat 16 p.1) :: []) ∧
      (0xFFFFFFFE : Word).extractLsb' 0 2 ≠ 3 ∧ (1 : Word) ≠ 0 ∧ (1024 : Word).toNat ≤ 1024 := by decide

theorem witness_NoteStartsOnHit : started.lookup 0x5A = .hit 0 ∧ (1 : Word) ≠ 0 := by decide

theorem witness_NoteSkippedOnMissOrZero : started.lookup 0 = .miss ∧ (0 : Word) = 0 := by decide

theorem witness_PulseEmitsSample : (noteBegun.voice noteBegun.cur).st = .playing ∧ (noteBegun.voice noteBegun.cur).gate ≠ 0 := by decide

theorem witness_TriangleEmitsSample :
    ∃ s : State, (s.voice s.cur).st = .playing ∧ (s.voice s.cur).gate ≠ 0 ∧ (s.voice s.cur).vcfg.kind = .triangle :=
  ⟨playing { kind := .triangle, metal := false } 0x80000000 0x7FFFFFFF 882 1 1, by decide⟩

theorem witness_NoiseEmitsSample :
    ∃ s : State, (s.voice s.cur).st = .playing ∧ (s.voice s.cur).gate ≠ 0 ∧ (s.voice s.cur).vcfg = { kind := .noise, metal := true } :=
  ⟨playing { kind := .noise, metal := true } 0x80000000 0 0 1 1, by decide⟩

theorem witness_EnvelopeAtSampleK : (noteBegun.voice 0).env = 0 ∧ (noteBegun.voice 0).rdone = false := by decide

theorem witness_PhaseAtSampleK : (noteBegun.voice 0).phase = 0 := by decide

theorem witness_HalfDutyPulseIsBalanced :
    let r := { noteBegun.voice 0 with duty := 0x80000000, fcw := 0x30000000 }
    r.duty = 0x80000000 ∧ r.fcw ≠ 0 ∧ 4294967296 / Nat.gcd r.fcw.toNat 4294967296 = 16 := by decide

/-- The extreme operands. -/
theorem witness_SampleWordIsExact :
    (-1073741824 : Int) ≤ -1073741824 ∧ (-1073741824 : Int) ≤ 1073741824 ∧ 882 ≤ 882 ∧ 5 ≤ 5 ∧
      (sampleWord (-1073741824 * 882 * 5)).toInt = -4735201443840 := by decide

theorem witness_SampleIsDocumentFormula :
    Inv noteBegun ∧ (noteBegun.voice noteBegun.cur).st = .playing ∧ (∃ t, exec (.pulse true) noteBegun = .next t) ∧
      (∃ t, exec (.triangle true) noteBegun = .next t) ∧ (∃ t, exec .noise noteBegun = .next t) ∧ ∃ t, exec .noiseM noteBegun = .next t :=
  ⟨by decide, by decide, ⟨_, rfl⟩, ⟨_, rfl⟩, ⟨_, rfl⟩, _, rfl⟩

theorem witness_TickBeforeStartChangesNothing : State.reset.run = false := by decide

theorem witness_FinishedIsTerminal :
    (allFinished.voice allFinished.cur).st = .finished ∧ (allFinished.run = true ∧ (allFinished.voice 3).st = .finished ∧ ∃ t, tick allFinished = .next t) ∧ allFinished.allDone = true :=
  ⟨by decide, ⟨by decide, by decide, _, rfl⟩, by decide⟩

/-- A voice before each transition: Finished, Playing before and at its last sample, Idle with and without events. -/
theorem witness_SchedulerTransitions :
    (Inv noteBegun ∧ noteBegun.run = true ∧ (noteBegun.voice 0).st = .playing ∧ (noteBegun.voice 0).gate ≠ 1 ∧ ∃ t, tick noteBegun = .next t) ∧
      (Inv lastSample ∧ (lastSample.voice 0).gate = 1 ∧ ∃ t, tick lastSample = .next t ∧ (t.voice 0).st = .idle) ∧
      (Inv songP3 ∧ (songP3.voice 1).st = .idle ∧
        ∃ t, tick songP3 = .next t ∧ (t.voice 1).st = .playing ∧ (t.voice 2).st = .finished) ∧
      Inv allFinished ∧ (allFinished.voice 0).st = .finished ∧ ∃ t, tick allFinished = .next t :=
  ⟨⟨by decide, by decide, by decide, by decide, _, rfl⟩, ⟨by decide, by decide, _, rfl, by decide⟩,
    ⟨by decide, by decide, _, rfl, by decide, by decide⟩, by decide, by decide, _, rfl⟩

/-- Two states that differ in another voice. -/
theorem witness_VoicesAreIsolated :
    songP3.run = songP3other.run ∧ songP3.voice 1 = songP3other.voice 1 ∧ songP3.voice 0 ≠ songP3other.voice 0 ∧
      (∀ key, songP3.lookup key = songP3other.lookup key) ∧
      (∀ (k : EventIndex) (n : Nat), n ≤ 2 → songP3.melWord 1 k n = songP3other.melWord 1 k n) ∧
      (∃ t, tick songP3 = .next t) ∧ ∃ t', tick songP3other = .next t' := by
  have hf : songP3other.ft = songP3.ft := by rw [songP3other, State.setVoice_ft]
  have hm : songP3other.mel = songP3.mel := by rw [songP3other, State.setVoice_mel]
  refine ⟨by decide, by decide, by decide, fun key => ?_, fun k n _ => ?_, ⟨_, rfl⟩, _, rfl⟩
  · unfold State.lookup
    rw [hf]
  · unfold State.melWord State.word State.byte
    rw [hm]

/-- Voice 1 of P3: three skipped events, then one that plays. -/
theorem witness_SkippedEventsCostNoTick :
    Inv songP3 ∧ Loaded songP3 ∧ songP3.run = true ∧ (songP3.voice 1).st = .idle ∧ (songP3.voice 1).ptr.toNat + 3 < (songP3.voice 1).len.toNat ∧
      (∀ m < 3, Skipped songP3 1 ((songP3.voice 1).ptr.toNat + m)) ∧
      songP3.lookup (songP3.eventKey 1 ((songP3.voice 1).ptr.toNat + 3)) = .hit 0 ∧
      songP3.eventDur 1 ((songP3.voice 1).ptr.toNat + 3) ≠ 0 := by decide

/-- Voice 2 of P3 (all events skipped) and voice 0 (no event). -/
theorem witness_ExhaustedMelodyFinishes :
    Inv songP3 ∧ Loaded songP3 ∧ songP3.run = true ∧ (songP3.voice 2).st = .idle ∧ (songP3.voice 2).ptr.toNat = 0 ∧ (songP3.voice 2).len.toNat = 2 ∧
      Skipped songP3 2 0 ∧ Skipped songP3 2 1 ∧ (songP3.voice 0).st = .idle ∧ (songP3.voice 0).len.toNat = 0 := by decide

theorem witness_NoteLastsItsGate :
    Loaded noteBegun ∧ noteBegun.run = true ∧ (noteBegun.voice 0).st = .playing ∧ 43 < (noteBegun.voice 0).gate.toNat := by decide

theorem witness_NoteSampleSequence :
    Loaded noteBegun ∧ noteBegun.run = true ∧ (noteBegun.voice 0).st = .playing ∧ (noteBegun.voice 0).env = 0 ∧ (noteBegun.voice 0).rdone = false ∧
      (noteBegun.voice 0).phase = 0 ∧ (noteBegun.voice 0).lfsr = (noteBegun.voice 0).seed ∧ 43 < (noteBegun.voice 0).gate.toNat := by decide

theorem witness_MelodyTotalLength : Inv songP3 ∧ Loaded songP3 ∧ songP3.run = true ∧ (songP3.voice 1).st = .idle := by decide

theorem witness_AllDoneWhenLongestVoiceEnds : Inv songP3 ∧ Loaded songP3 ∧ songP3.run = true ∧ ∀ v, (songP3.voice v).st = .idle := by decide

theorem witness_TickTouchesOnlyVoicesAndPorts : ∃ t, tick songP3 = .next t := ⟨_, rfl⟩

theorem witness_StepKeepsRegisterInvariant : Inv songP3 ∧ ∃ t, step songP3 = .next t := ⟨by decide, _, rfl⟩

theorem witness_StepKeepsMemoryCanonical : songP3.mel.wf = true ∧ ∃ t, step songP3 = .next t := ⟨by decide, _, rfl⟩

theorem witness_RunFreezesConfiguration : songP3.run = true ∧ (∀ rest, songP3.pending ≠ .reset :: rest) ∧ ∃ t, step songP3 = .next t :=
  ⟨by decide, fun _ h => List.cons_ne_nil _ _ (show _ = ([] : List Input) from h.symm), _, rfl⟩

theorem witness_HostNeverMovesVoices :
    ((∃ w, (songP3.setPending [.write 0]).pending = .write w :: []) ∧ ∃ t, step (songP3.setPending [.write 0]) = .next t) ∧
      (∃ a, (songP3.setPending [.read 0]).pending = .read a :: []) ∧ ∃ t, step (songP3.setPending [.read 0]) = .next t :=
  ⟨⟨⟨_, rfl⟩, _, rfl⟩, ⟨_, rfl⟩, _, rfl⟩

theorem witness_AllDoneHoldsUntilReset :
    allFinished.allDone = true ∧ (∀ rest, allFinished.pending ≠ .reset :: rest) ∧ ∃ t, step allFinished = .next t :=
  ⟨by decide, fun _ h => List.cons_ne_nil _ _ (show _ = ([] : List Input) from h.symm), _, rfl⟩

theorem witness_FrequencyTableIsConstant : ∃ t, step songP3 = .next t := ⟨_, rfl⟩

end Sys2Proof.Tests
end

/-! SUPPORT. Waveform, envelope and sample word as numbers, and the sample as the document's real-number formula (O43). -/

namespace Sys2Proof.Machine

/-! ## The three waveform values -/

theorem pulseWave_bounds (r : VoiceRegs) : -1073741824 ≤ pulseWave r ∧ pulseWave r ≤ 1073741824 := by
  unfold pulseWave
  split <;> decide

theorem noiseWave_bounds (r : VoiceRegs) : -1073741824 ≤ noiseWave r ∧ noiseWave r ≤ 1073741824 := by
  unfold noiseWave
  split <;> decide

/-- The triangle as a function of the phase's integer value: up over the first half cycle, down over the second (`42_triangle.md` R120). -/
theorem triWave_eq (r : VoiceRegs) :
    triWave r = if r.phase.toNat < 2147483648 then (r.phase.toNat : Int) - 1073741824 else 3221225472 - (r.phase.toNat : Int) := by
  have hlt := r.phase.isLt
  have htop : r.phase.getLsbD 31 = decide (2147483648 ≤ r.phase.toNat) := BitVec.getLsbD_last r.phase
  have hramp : (r.phase.extractLsb' 0 31).toNat = r.phase.toNat % 2147483648 := by simp
  simp only [triWave, Config.wOne, htop, hramp, decide_eq_true_eq]
  split <;> split <;> omega

theorem triWave_bounds (r : VoiceRegs) : -1073741824 ≤ triWave r ∧ triWave r ≤ 1073741824 := by
  have hlt := r.phase.isLt
  rw [triWave_eq]
  split <;> omega

/-- The pulse in units of `W_ONE`, by the phase and duty fractions (`00_scope.md` R10, `41_pulse.md` R110). -/
theorem pulseWave_div_wOne (r : VoiceRegs) :
    (pulseWave r : ℚ) / 1073741824 =
      if (r.phase.toNat : ℚ) / 4294967296 < r.duty.toNat / 4294967296 then 1 else -1 := by
  have hiff : ((r.phase.toNat : ℚ) / 4294967296 < r.duty.toNat / 4294967296) ↔ r.phase < r.duty := by
    rw [div_lt_div_iff_of_pos_right (by norm_num), Nat.cast_lt, BitVec.lt_def]
  simp only [hiff, pulseWave]
  split <;> norm_num

/-- The triangle in units of `W_ONE`, by the phase fraction (`00_scope.md` R10, `42_triangle.md` R120). -/
theorem triWave_div_wOne (r : VoiceRegs) :
    (triWave r : ℚ) / 1073741824 =
      if (r.phase.toNat : ℚ) / 4294967296 < 1 / 2 then 4 * ((r.phase.toNat : ℚ) / 4294967296) - 1
      else 3 - 4 * ((r.phase.toNat : ℚ) / 4294967296) := by
  have hiff : ((r.phase.toNat : ℚ) / 4294967296 < 1 / 2) ↔ r.phase.toNat < 2147483648 := by
    rw [div_lt_iff₀ (by norm_num), ← Nat.cast_lt (α := ℚ)]
    norm_num
  simp only [hiff, triWave_eq]
  split <;> push_cast <;> ring

/-- The noise in units of `W_ONE`, by the low bit of `LFSR` (`00_scope.md` R10, `43_noise.md` R130). -/
theorem noiseWave_div_wOne (r : VoiceRegs) :
    (noiseWave r : ℚ) / 1073741824 = if r.lfsr.getLsbD 0 then 1 else -1 := by
  unfold noiseWave
  split <;> norm_num

/-! ## The envelope -/

/-- Under `10_state.md` R50 the amplitude is the register `ENV` itself: it stands at 882 once the ramp is done. -/
theorem VoiceInv.envAmplitude_eq_env {run : Bool} {r : VoiceRegs} (h : VoiceInv run r) :
    envAmplitude r = r.env.toNat ∧ r.env.toNat ≤ 882 := by
  obtain ⟨-, -, -, -, -, -, hle, hdone, -⟩ := h
  refine ⟨?_, hle⟩
  rw [envAmplitude_eq]
  split
  · next hfull =>
    rcases hfull with hd | hge
    · exact (hdone hd).symm
    · omega
  · rfl

/-- The document's ramp of 0.02 seconds at 44100 samples a second is 882 samples long (`40_envelope.md` R104). -/
theorem ramp_level_eq (n : Nat) (h : n ≤ 882) : min 1 (((n : ℚ) / 44100) / (2 / 100)) = n / 882 := by
  have hcast : (n : ℚ) ≤ 882 := by exact_mod_cast h
  have hval : ((n : ℚ) / 44100) / (2 / 100) = n / 882 := by ring
  rw [hval, min_eq_right ((div_le_one (by norm_num)).mpr hcast)]

/-! ## The sample word -/

/-- A product of a waveform value, an amplitude and a level is at most full scale at that level. -/
theorem abs_sample_le (w : Int) (a g : Nat) (hlo : -1073741824 ≤ w) (hhi : w ≤ 1073741824) (ha : a ≤ 882) :
    |w * a * g| ≤ 1073741824 * 882 * g := by
  rw [abs_mul, abs_mul, Nat.abs_cast, Nat.abs_cast]
  have hw : |w| ≤ 1073741824 := abs_le.mpr ⟨hlo, hhi⟩
  gcongr
  exact_mod_cast ha

/-- 44 bits hold every sample product (`44_scheduler.md` R150). -/
theorem sampleWord_toInt (w : Int) (a g : Nat) (hlo : -1073741824 ≤ w) (hhi : w ≤ 1073741824) (ha : a ≤ 882) (hg : g ≤ 5) :
    (sampleWord (w * a * g)).toInt = w * a * g := by
  have habs := abs_le.mp (abs_sample_le w a g hlo hhi ha)
  exact BitVec.toInt_ofInt_eq_self (by decide) (by omega) (by omega)

/-- An emitted sample in units of `SMP_SCALE` is level times envelope times waveform (`00_scope.md` R9, R10; `44_scheduler.md` R150). -/
theorem emitSample_level {s t : State} {r : VoiceRegs} {w : Int} {g : Nat} {adv : Bool} {n : Nat}
    (ht : emitSample r w g adv s = t) (ha : envAmplitude r = n) (hn : n ≤ 882)
    (hw : -1073741824 ≤ w ∧ w ≤ 1073741824) (hg : g ≤ 5) :
    ((t.port s.cur).data.toInt : ℚ) / 47352014438400 =
      g / 50 * min 1 (((n : ℚ) / 44100) / (2 / 100)) * (w / 1073741824) := by
  obtain ⟨-, hport, -⟩ := emitSample_frame r w g adv s
  have hdata : ((emitSample r w g adv s).port s.cur).data.toInt = w * n * g := by
    rw [hport, samplePort, ha]
    exact sampleWord_toInt w n g hw.1 hw.2 hn hg
  rw [← ht, hdata, ramp_level_eq n hn]
  push_cast
  ring

/-- An emitted sample leaves in `LFSR` the value it was made from: a noise register steps before, not after (`43_noise.md` R130). -/
theorem emitSample_lfsr {s t : State} {r : VoiceRegs} {w : Int} {g : Nat} {adv : Bool} (ht : emitSample r w g adv s = t) :
    (t.voice s.cur).lfsr = r.lfsr := by
  obtain ⟨-, -, hvoice⟩ := emitSample_frame r w g adv s
  rw [← ht, hvoice, gateStep_eq, envStep_eq]
  cases adv <;> rfl

/-! ## What the four per-sample operations answer -/

theorem exec_pulse_eq_next {m : Bool} {s t : State} (h : exec (.pulse m) s = .next t) :
    emitSample (s.voice s.cur) (pulseWave (s.voice s.cur)) 5 true s = t := Host.Outcome.next.inj h

theorem exec_triangle_eq_next {m : Bool} {s t : State} (h : exec (.triangle m) s = .next t) :
    emitSample (s.voice s.cur) (triWave (s.voice s.cur)) 5 true s = t := Host.Outcome.next.inj h

theorem exec_noise_eq_next {s t : State} (h : exec .noise s = .next t) :
    emitSample (noiseStep (s.voice s.cur)) (noiseWave (noiseStep (s.voice s.cur))) 5 false s = t := Host.Outcome.next.inj h

theorem exec_noiseM_eq_next {s t : State} (h : exec .noiseM s = .next t) :
    emitSample (noiseStep (s.voice s.cur)) (noiseWave (noiseStep (s.voice s.cur))) 4 false s = t := Host.Outcome.next.inj h

/-- Settles O43: the sample is the exact product of level, envelope and waveform, and each factor over its scale is the document's. -/
theorem sampleIsDocumentFormula : Obligations.SampleIsDocumentFormula := by
  unfold Obligations.SampleIsDocumentFormula
  intro s hinv _ r p A
  obtain ⟨ha, hn⟩ := (hinv s.cur).envAmplitude_eq_env
  have haNoise : envAmplitude (noiseStep r) = r.env.toNat := ha
  have hfull : ((5 : ℕ) : ℚ) / 50 = 1 / 10 := by norm_num
  have hmetal : ((4 : ℕ) : ℚ) / 50 = 8 / 10 * (1 / 10) := by norm_num
  refine ⟨fun m t h => ?pulse, fun m t h => ?triangle, fun t h => ?noise, fun t h => ?noiseM⟩
  case pulse =>
    rw [emitSample_level (exec_pulse_eq_next h) ha hn (pulseWave_bounds r) (by decide), pulseWave_div_wOne, hfull]
  case triangle =>
    rw [emitSample_level (exec_triangle_eq_next h) ha hn (triWave_bounds r) (by decide), triWave_div_wOne, hfull]
  case noise =>
    have ht := exec_noise_eq_next h
    rw [emitSample_level ht haNoise hn (noiseWave_bounds _) (by decide), noiseWave_div_wOne, emitSample_lfsr ht, hfull]
  case noiseM =>
    have ht := exec_noiseM_eq_next h
    rw [emitSample_level ht haNoise hn (noiseWave_bounds _) (by decide), noiseWave_div_wOne, emitSample_lfsr ht, hmetal]
    ring

end Sys2Proof.Machine

/-! SUPPORT. What a step can do to the state, said once: the effects of a host operation, and of a tick on one voice (the loop of `Schedule` as a
relation, the emitted sample as one record). The statements of `10_state.md` are derived from these. -/

namespace Sys2Proof.Machine

/-! ## Host operations -/

/-- What a host write or read leaves: nothing changed, a dropped write, an accepted write (only with `RUN = 0`), or the word read (`45_host.md` R170
to R178). -/
inductive HostEffect (s : State) : State → Prop
  | nothing : HostEffect s s
  | drop : HostEffect s (dropWrite s)
  | start (hrun : s.run = false) : HostEffect s (s.setRun true)
  | vcfg (hrun : s.run = false) (v : Voice) (c : Vcfg) : HostEffect s (s.setVoice v { s.voice v with vcfg := c })
  | duty (hrun : s.run = false) (v : Voice) (d : Word) (hd : d ≠ 0) : HostEffect s (s.setVoice v { s.voice v with duty := d })
  | seed (hrun : s.run = false) (v : Voice) (d : Word) (hd : d ≠ 0) : HostEffect s (s.setVoice v { s.voice v with seed := d })
  | len (hrun : s.run = false) (v : Voice) (d : BitVec 11) (hd : d.toNat ≤ 1024) :
      HostEffect s (s.setVoice v { s.voice v with len := d })
  | melody (hrun : s.run = false) (a : Nat) (d : Word) : HostEffect s (s.setWord a d)
  | read (d : Word) : HostEffect s (s.setReadData d)

/-- The phase lock and the value filter (`45_host.md` R172, R173): a write has an effect of its own only when accepted. -/
theorem HostEffect.configWrite {s t : State} {legal : Bool} (h : s.run = false → legal = true → HostEffect s t) :
    HostEffect s (configWrite s legal t) := by
  rcases configWrite_cases s t legal with hdrop | ⟨hrun, hlegal, hwrite⟩
  · rw [hdrop]; exact .drop
  · rw [hwrite]; exact h hrun hlegal

theorem exec_start_effect (s : State) : ∃ t, exec .start s = .next t ∧ HostEffect s t := by
  refine ⟨_, rfl, ?_⟩
  split
  · exact .drop
  · next h => exact .start (Bool.not_eq_true _ ▸ h)

theorem exec_wrVcfg_effect (s : State) (v : Voice) (d : Word) : ∃ t, exec (.wrVcfg v d) s = .next t ∧ HostEffect s t := by
  show ∃ t, execWrVcfg v d s = .next t ∧ _
  unfold execWrVcfg
  split
  · exact ⟨_, rfl, .configWrite fun hrun _ => .vcfg hrun v _⟩
  · exact ⟨_, rfl, .drop⟩

theorem exec_wrDuty_effect (s : State) (v : Voice) (d : Word) : ∃ t, exec (.wrDuty v d) s = .next t ∧ HostEffect s t :=
  ⟨_, rfl, .configWrite fun hrun hd => .duty hrun v d (bne_iff_ne.mp hd)⟩

theorem exec_wrSeed_effect (s : State) (v : Voice) (d : Word) : ∃ t, exec (.wrSeed v d) s = .next t ∧ HostEffect s t :=
  ⟨_, rfl, .configWrite fun hrun hd => .seed hrun v d (bne_iff_ne.mp hd)⟩

theorem exec_wrLen_effect (s : State) (v : Voice) (d : Word) : ∃ t, exec (.wrLen v d) s = .next t ∧ HostEffect s t := by
  refine ⟨_, rfl, .configWrite fun hrun hd => .len hrun v _ ?_⟩
  have hle : d.toNat ≤ 1024 := of_decide_eq_true hd
  rw [BitVec.toNat_setWidth]
  omega

/-- A decoded host write completes, with one of the effects listed (`30_encoding.md` R86). -/
theorem exec_decodeWrite_effect (s : State) (a : Addr) (d : Word) : ∃ t, exec (decodeWrite a d) s = .next t ∧ HostEffect s t := by
  unfold decodeWrite
  split
  · split
    · exact exec_start_effect s
    · exact ⟨s, rfl, .nothing⟩
  · exact exec_wrVcfg_effect s _ d
  · exact exec_wrDuty_effect s _ d
  · exact exec_wrSeed_effect s _ d
  · exact exec_wrLen_effect s _ d
  · exact ⟨_, rfl, .configWrite fun hrun _ => .melody hrun _ d⟩
  · exact ⟨_, rfl, .configWrite fun hrun _ => .melody hrun _ d⟩
  · exact ⟨_, rfl, .configWrite fun hrun _ => .melody hrun _ d⟩
  all_goals exact ⟨_, rfl, .drop⟩

/-- An input from the host is a write or a read. -/
def Input.isHost : Input → Bool
  | .write _ | .read _ => true
  | .tick | .reset => false

theorem runInput_host {x : Input} {s t : State} (hx : x.isHost = true) (h : runInput x s = .next t) : HostEffect s t := by
  cases x with
  | write w =>
    obtain ⟨t', ht', heff⟩ := exec_decodeWrite_effect s (w.extractLsb' 32 16) (w.extractLsb' 0 32)
    cases ht'.symm.trans h
    exact heff
  | read a => cases h; exact .read _
  | tick => cases hx
  | reset => cases hx

/-- What a completed step was: a tick, a host operation, or a queued reset, on the state whose queue has moved on. -/
theorem step_cases {s t : State} (h : step s = .next t) :
    ∃ q, tick (s.setPending q) = .next t ∨ HostEffect (s.setPending q) t ∨
      s.pending = .reset :: q ∧ t = (s.setPending q).applyReset := by
  rcases hp : s.pending with _ | ⟨x, q⟩
  · rw [step_nil s hp] at h
    exact ⟨s.pending, .inl h⟩
  · rw [step_cons s x q hp] at h
    refine ⟨q, ?_⟩
    cases x with
    | write w => exact .inr (.inl (runInput_host rfl h))
    | read a => exact .inr (.inl (runInput_host rfl h))
    | tick => exact .inl h
    | reset => cases h; exact .inr (.inr ⟨rfl, rfl⟩)

/-! ## One voice's step in a tick -/

/-- The loop of `Schedule` (`44_scheduler.md` R145) on one voice's registers, as a relation: a voice that is not Idle keeps them, an Idle voice with no
event left is Finished, and an Idle voice with an event executes it and goes on. -/
inductive Scheduled (ev : EventIndex → Option (BitVec 96)) (ft : Key → FtAnswer) : VoiceRegs → VoiceRegs → Prop
  | busy (r : VoiceRegs) (hst : r.st ≠ .idle) : Scheduled ev ft r r
  | finish (r : VoiceRegs) (hst : r.st = .idle) (hend : r.len.toNat ≤ r.ptr.toNat) : Scheduled ev ft r { r with st := .finished }
  | event (r q : VoiceRegs) (w : BitVec 96) (hst : r.st = .idle) (hlt : r.ptr.toNat < r.len.toNat) (hw : ev (eventIndex r.ptr) = some w)
      (rest : Scheduled ev ft (eventRegs r (ft (w.extractLsb' 0 64)) (w.extractLsb' 64 32)) q) : Scheduled ev ft r q

section Schedule

variable {ev : EventIndex → Option (BitVec 96)} {ft : Key → FtAnswer}

/-- A pointer below `LEN` moves on without wrapping. -/
theorem ptr_succ_toNat {r : VoiceRegs} (h : r.ptr.toNat < r.len.toNat) : (r.ptr + 1).toNat = r.ptr.toNat + 1 := by
  have := r.len.isLt
  rw [BitVec.toNat_add, show (1 : BitVec 11).toNat = 1 from rfl]
  omega

theorem regsConsume_scheduled {n : Nat} {r q : VoiceRegs} (hst : r.st = .idle) (hn : n = r.len.toNat - r.ptr.toNat)
    (h : regsConsume ev ft n r = some q) : Scheduled ev ft r q := by
  induction n generalizing r with
  | zero => cases h; exact .finish r hst (by omega)
  | succ n ih =>
    have hlt : r.ptr.toNat < r.len.toNat := by omega
    rw [regsConsume] at h
    cases hw : ev (eventIndex r.ptr) with
    | none => rw [hw] at h; cases h
    | some w =>
      simp only [hw] at h
      refine .event r q w hst hlt hw ?_
      obtain ⟨hptr, hlen⟩ := eventRegs_ptr_len r (ft (w.extractLsb' 0 64)) (w.extractLsb' 64 32)
      split at h
      · next hidle => exact ih hidle (by rw [hptr, hlen, ptr_succ_toNat hlt]; omega) h
      · next hbusy => cases h; exact .busy _ hbusy

/-- `Schedule` answers registers that its relation admits. -/
theorem regsSchedule_scheduled {r q : VoiceRegs} (h : regsSchedule ev ft r = some q) : Scheduled ev ft r q := by
  unfold regsSchedule at h
  split at h
  · next hidle => exact regsConsume_scheduled hidle rfl h
  · next hbusy => cases h; exact .busy r hbusy

/-- A voice that has scheduled is not Idle (`44_scheduler.md` R142). -/
theorem Scheduled.not_idle {r q : VoiceRegs} (h : Scheduled ev ft r q) : q.st ≠ .idle := by
  induction h with
  | busy r hst => exact hst
  | finish r hst hend => exact fun h => nomatch h
  | event r q w hst hlt hw rest ih => exact ih

/-- A completed `VoiceTick` schedules, then emits or keeps silent (`44_scheduler.md` R141). -/
theorem voiceNext_scheduled {r : VoiceRegs} {x : VoiceRegs × SamplePort} (h : voiceNext ev ft r = some x) :
    ∃ q, Scheduled ev ft r q ∧ emitNext q = x := by
  obtain ⟨q, hq, hx⟩ := Option.map_eq_some_iff.mp h
  exact ⟨q, regsSchedule_scheduled hq, hx⟩

end Schedule

/-- A sample as one record: the envelope and the gate step for every kind, the noise register for Noise, the phase for the others
(`44_scheduler.md` R151). -/
theorem regsSample_eq (r : VoiceRegs) :
    regsSample r =
      { r with
        env := if r.rdone = true ∨ 882 ≤ r.env.toNat then r.env else r.env + 1
        rdone := r.rdone || decide (882 ≤ r.env.toNat)
        gate := r.gate - 1
        st := if r.gate = 1 then .idle else r.st
        phase := if r.vcfg.kind = .noise then r.phase else r.phase + r.fcw
        lfsr := if r.vcfg.kind = .noise then xorShift r.lfsr else r.lfsr } := by
  obtain ⟨⟨kind, metal⟩, duty, seed, len, ptr, st, notes, gate, fcw, phase, env, rdone, lfsr⟩ := r
  cases kind <;> cases metal <;> simp [regsSample, regsMux, gateStep_eq, envStep_eq, phaseAdvance, noiseStep]

/-- A sample does not end the melody. -/
theorem regsSample_not_finished {r : VoiceRegs} (h : r.st = .playing) : (regsSample r).st ≠ .finished := by
  rw [regsSample_eq]
  dsimp only
  rw [h]
  split <;> exact nofun

/-- After its `VoiceTick` a voice that played has taken a sample, and one that is Finished is as it was. -/
theorem emitNext_regs_cases {q r : VoiceRegs} {p : SamplePort} (h : emitNext q = (r, p)) :
    (q.st = .playing ∧ r = regsSample q ∧ p = regsPort q) ∨ (q.st ≠ .playing ∧ r = q ∧ p = .silent) := by
  unfold emitNext at h
  split at h
  · next hst => cases h; exact .inl ⟨hst, rfl, rfl⟩
  · next hst => cases h; exact .inr ⟨hst, rfl, rfl⟩

/-- What a completed tick was: with `RUN = 0` a silence, with `RUN = 1` every voice's own step and nothing else. -/
theorem tick_cases {s t : State} (h : tick s = .next t) :
    (s.run = false ∧ t = s.silence) ∨
      (s.run = true ∧ SameOutsideVoices s t ∧ t.cur = s.cur ∧
        ∀ v, voiceNext (s.melFetch v) s.lookup (s.voice v) = some (t.voice v, t.port v)) := by
  cases hrun : s.run with
  | false =>
    rw [tick_idle s hrun] at h
    cases h
    exact .inl ⟨rfl, rfl⟩
  | true =>
    rcases tick_spec s hrun with ⟨t', ht', hspec⟩ | ⟨hr, -⟩
    · cases ht'.symm.trans h
      exact .inr ⟨rfl, hspec⟩
    · cases hr.symm.trans h

/-! ## The register invariant (`10_state.md` R50) -/

theorem xor_shiftRight_eq_zero {x : Word} {n : Nat} (hn : 0 < n) (h : x ^^^ (x >>> n) = 0) : x = 0 := by
  have heq : x = x >>> n := BitVec.xor_eq_zero_iff.mp h
  have hdiv : x.toNat = x.toNat / 2 ^ n := by
    rw [← Nat.shiftRight_eq_div_pow, ← BitVec.toNat_ushiftRight, ← heq]
  by_contra hne
  have hpos : 0 < x.toNat := Nat.pos_of_ne_zero fun h0 => hne (BitVec.eq_of_toNat_eq h0)
  have := Nat.div_lt_self hpos (Nat.one_lt_two_pow hn.ne')
  omega

theorem xor_shiftLeft_eq_zero {x : Word} (h : x ^^^ (x <<< Config.xorShiftB) = 0) : x = 0 := by
  have heq : x = x <<< Config.xorShiftB := BitVec.xor_eq_zero_iff.mp h
  have hmul : x.toNat = x.toNat * 512 % 4294967296 := by
    conv_lhs => rw [heq, BitVec.toNat_shiftLeft, Nat.shiftLeft_eq]
    rfl
  apply BitVec.eq_of_toNat_eq
  show x.toNat = 0
  omega

/-- The noise step never makes the register 0 (`43_noise.md` R132). -/
theorem xorShift_ne_zero {x : Word} (h : x ≠ 0) : xorShift x ≠ 0 := fun h0 =>
  h (xor_shiftRight_eq_zero (by decide) (xor_shiftLeft_eq_zero (xor_shiftRight_eq_zero (by decide) h0)))

theorem gateLength_lt (d : Word) : gateLength d < 2 ^ 38 := by
  have := d.isLt
  unfold gateLength Config.samplesPerTenMs
  omega

/-- `GATE` holds every gate length (`44_scheduler.md` R147). -/
theorem gateLength_toNat (d : Word) : (BitVec.ofNat 38 (gateLength d)).toNat = gateLength d := by
  rw [BitVec.toNat_ofNat]
  exact Nat.mod_eq_of_lt (gateLength_lt d)

theorem gate_ne_zero {d : Word} (h : d ≠ 0) : BitVec.ofNat 38 (gateLength d) ≠ 0 := by
  intro h0
  apply h
  rw [← gateLength_eq_zero, ← gateLength_toNat, h0]
  rfl

/-- The gate of a voice that does not play is shut. -/
theorem VoiceInv.gate_eq_zero {run : Bool} {r : VoiceRegs} (h : VoiceInv run r) (hst : r.st ≠ .playing) : r.gate = 0 := by
  obtain ⟨-, -, -, -, -, -, -, -, hgate, -, -⟩ := h
  exact not_not.mp fun hopen => hst (hgate.mp hopen)

/-- The gate of a voice that plays is open. -/
theorem VoiceInv.gate_pos {run : Bool} {r : VoiceRegs} (h : VoiceInv run r) (hst : r.st = .playing) : 0 < r.gate.toNat := by
  obtain ⟨-, -, -, -, -, -, -, -, hgate, -, -⟩ := h
  exact Nat.pos_of_ne_zero fun h0 => hgate.mpr hst (BitVec.eq_of_toNat_eq h0)

/-- An event of a running Idle voice keeps R50, whether it starts a note or is skipped. -/
theorem VoiceInv.after_event {r : VoiceRegs} (h : VoiceInv true r) (hst : r.st = .idle) (hlt : r.ptr.toNat < r.len.toNat) (a : FtAnswer)
    (d : Word) : VoiceInv true (eventRegs r a d) := by
  obtain ⟨hduty, hseed, hlfsr, hlen, hptr, -, henv, hdone, hgate, hfin, -⟩ := h
  have hptr' : (r.ptr + 1).toNat ≤ r.len.toNat := (ptr_succ_toNat hlt).trans_le hlt
  rcases eventRegs_cases r a d with ⟨fcw, -, hd, heq⟩ | ⟨-, heq⟩
  · rw [heq]
    exact ⟨hduty, hseed, hseed, hlen, hptr', nofun, Nat.zero_le _, nofun, ⟨fun _ => rfl, fun _ => gate_ne_zero hd⟩, nofun, nofun⟩
  · rw [heq]
    exact ⟨hduty, hseed, hlfsr, hlen, hptr', nofun, henv, hdone, hgate, fun h' => (nomatch hst.symm.trans h'), nofun⟩

theorem VoiceInv.after_finish {r : VoiceRegs} (h : VoiceInv true r) (hst : r.st = .idle) (hend : r.len.toNat ≤ r.ptr.toNat) :
    VoiceInv true { r with st := .finished } := by
  have hgate := h.gate_eq_zero (hst ▸ nofun)
  obtain ⟨hduty, hseed, hlfsr, hlen, hptr, -, henv, hdone, -, -, -⟩ := h
  exact ⟨hduty, hseed, hlfsr, hlen, hptr, nofun, henv, hdone, ⟨fun h' => absurd hgate h', nofun⟩,
    fun _ => BitVec.eq_of_toNat_eq (hptr.antisymm hend), nofun⟩

theorem VoiceInv.after_schedule {ev : EventIndex → Option (BitVec 96)} {ft : Key → FtAnswer} {r q : VoiceRegs} (hs : Scheduled ev ft r q)
    (h : VoiceInv true r) : VoiceInv true q := by
  induction hs with
  | busy r hst => exact h
  | finish r hst hend => exact h.after_finish hst hend
  | event r q w hst hlt hw rest ih => exact ih (h.after_event hst hlt _ _)

/-- A sample of a Playing voice keeps R50: the envelope stops at 882, the noise register is never 0, and the voice is Idle when the gate is out. -/
theorem VoiceInv.after_sample {r : VoiceRegs} (h : VoiceInv true r) (hst : r.st = .playing) : VoiceInv true (regsSample r) := by
  obtain ⟨hduty, hseed, hlfsr, hlen, hptr, -, henv, hdone, -, -, -⟩ := h
  have hfin := regsSample_not_finished hst
  rw [regsSample_eq] at hfin ⊢
  refine ⟨hduty, hseed, ?lfsr, hlen, hptr, nofun, ?env, ?rdone, ?gate, fun h => absurd h hfin, nofun⟩
  case lfsr =>
    dsimp only
    split
    · exact xorShift_ne_zero hlfsr
    · exact hlfsr
  case env =>
    dsimp only
    split
    · exact henv
    · next hramp => rw [BitVec.toNat_add, show (1 : BitVec 10).toNat = 1 from rfl]; omega
  case rdone =>
    intro hd
    rw [Bool.or_eq_true, decide_eq_true_eq] at hd
    dsimp only
    rw [if_pos hd]
    rcases hd with hd | hd
    · exact hdone hd
    · omega
  case gate =>
    dsimp only
    rw [ne_eq, gate_last_iff, hst]
    split <;> simp_all

/-- A completed `VoiceTick` of a running voice keeps R50. -/
theorem VoiceInv.after_voiceTick {ev : EventIndex → Option (BitVec 96)} {ft : Key → FtAnswer} {r r' : VoiceRegs} {p : SamplePort}
    (h : VoiceInv true r) (hn : voiceNext ev ft r = some (r', p)) : VoiceInv true r' := by
  obtain ⟨q, hq, hemit⟩ := voiceNext_scheduled hn
  rcases emitNext_regs_cases hemit with ⟨hst, rfl, -⟩ | ⟨-, rfl, -⟩
  · exact (h.after_schedule hq).after_sample hst
  · exact h.after_schedule hq

theorem tick_inv {s t : State} (h : Inv s) (ht : tick s = .next t) : Inv t := by
  rcases tick_cases ht with ⟨-, rfl⟩ | ⟨hrun, hsame, -, hnext⟩
  · exact h
  · intro v
    have hv := h v
    rw [hrun] at hv
    rw [hsame.run, hrun]
    exact hv.after_voiceTick (hnext v)

/-- Replacing one voice's registers by registers that meet R50 keeps R50. -/
theorem Inv.setVoice {s : State} (h : Inv s) (v : Voice) {r : VoiceRegs} (hr : VoiceInv s.run r) : Inv (s.setVoice v r) := by
  intro u
  rw [State.setVoice_run, State.setVoice_voice]
  split
  · exact hr
  · exact h u

/-- With `RUN = 0` the pointer is 0 and the voice Idle, so any legal `LEN` keeps R50. -/
theorem VoiceInv.setLen {r : VoiceRegs} (h : VoiceInv false r) {d : BitVec 11} (hd : d.toNat ≤ 1024) : VoiceInv false { r with len := d } := by
  obtain ⟨hduty, hseed, hlfsr, -, -, hptr, henv, hdone, hgate, -, hidle⟩ := h
  have hptr0 : r.ptr = 0 := hptr rfl
  refine ⟨hduty, hseed, hlfsr, hd, ?_, hptr, henv, hdone, hgate, fun h' => ?_, hidle⟩
  · rw [hptr0]; exact Nat.zero_le _
  · exact nomatch (hidle rfl).1.symm.trans h'

/-- The invariant of the phase `RUN = 0` is the stronger one. -/
theorem VoiceInv.start {r : VoiceRegs} (h : VoiceInv false r) : VoiceInv true r := by
  obtain ⟨hduty, hseed, hlfsr, hlen, hle, -, henv, hdone, hgate, hfin, -⟩ := h
  exact ⟨hduty, hseed, hlfsr, hlen, hle, nofun, henv, hdone, hgate, hfin, nofun⟩

theorem HostEffect.inv {s t : State} (heff : HostEffect s t) (h : Inv s) : Inv t := by
  cases heff with
  | nothing => exact h
  | drop => exact h
  | start hrun => exact fun v => VoiceInv.start (hrun ▸ h v)
  | vcfg hrun v c => exact h.setVoice v (h v)
  | duty hrun v d hd =>
    obtain ⟨-, hrest⟩ := h v
    exact h.setVoice v ⟨hd, hrest⟩
  | seed hrun v d hd =>
    obtain ⟨hduty, -, hrest⟩ := h v
    exact h.setVoice v ⟨hduty, hd, hrest⟩
  | len hrun v d hd =>
    refine h.setVoice v ?_
    rw [hrun]
    exact VoiceInv.setLen (hrun ▸ h v) hd
  | melody hrun a d => exact h
  | read d => exact h

theorem reset_inv : Inv State.reset := by decide

/-- Settles O55: a tick keeps R50 voice by voice, a host operation by the effects it can have, and reset establishes it. -/
theorem stepKeepsRegisterInvariant : Obligations.StepKeepsRegisterInvariant := by
  unfold Obligations.StepKeepsRegisterInvariant
  intro s t hinv hstep
  obtain ⟨q, htick | heff | ⟨-, rfl⟩⟩ := step_cases hstep
  · exact tick_inv (s := s.setPending q) hinv htick
  · exact heff.inv hinv
  · exact reset_inv

/-- Settles O15: reset meets R50, and it lists no melody cell. -/
theorem resetMeetsInvariants : Obligations.ResetMeetsInvariants := ⟨reset_inv, reset_mel_wf⟩

end Sys2Proof.Machine

/-! SUPPORT. The status words bit by bit, what a tick and a host operation leave unchanged, and reset. -/

namespace Sys2Proof.Machine

/-! ## Status words (`10_state.md` R39, R42, R43) -/

/-- The machine is done exactly when all five voices are Finished (`10_state.md` R39). -/
theorem allDone_iff (s : State) : s.allDone = true ↔ ∀ v : Voice, (s.voice v).st = .finished := by
  simp [State.allDone, State.fin, Fin.forall_fin_succ, and_assoc]

theorem fiveBits_getLsbD (f : Voice → Bool) (v : Voice) : (fiveBits f).getLsbD v.val = f v := by
  simp only [fiveBits, BitVec.getLsbD_append, BitVec.getLsbD_ofBool]
  fin_cases v <;> simp

/-- A bit of `STATUS` by the field it lies in (`10_state.md` R42). -/
theorem statusWord_getLsbD (s : State) (b : Nat) :
    s.statusWord.getLsbD b =
      if b < 5 then (fiveBits s.fin).getLsbD b
      else if b < 8 then false
      else if b < 13 then (fiveBits s.play).getLsbD (b - 8)
      else if b < 16 then false
      else if b = 16 then s.allDone else if b = 17 then s.run else if b = 18 then s.cfgerr else false := by
  simp only [State.statusWord, BitVec.getLsbD_append, BitVec.getLsbD_ofBool, BitVec.getLsbD_zero]
  rcases lt_or_ge b 16 with hlow | hhigh
  · grind
  · grind

/-- The bits of `VSTAT` (`10_state.md` R43). -/
theorem vstatWord_bits (r : VoiceRegs) :
    (vstatWord r).getLsbD 2 = r.rdone ∧ (vstatWord r).extractLsb' 0 2 = stBits r.st ∧
      ∀ b : Nat, 3 ≤ b → (vstatWord r).getLsbD b = false := by
  simp only [vstatWord, BitVec.getLsbD_append, BitVec.getLsbD_ofBool, BitVec.getLsbD_zero]
  refine ⟨rfl, ?_, fun b hb => ?_⟩
  · cases r.rdone <;> cases r.st <;> rfl
  · simp [show ¬ b < 2 by omega, show ¬ b - 2 < 1 by omega]

/-- Settles O27: each clause is one field of `STATUS`, or of `VSTAT`. -/
theorem statusFields : Obligations.StatusFields := by
  unfold Obligations.StatusFields
  intro s
  refine ⟨fun v => ?fin, fun v => ?play, ?allDone, statusWord_getLsbD s 17, statusWord_getLsbD s 18, fun b hb => ?reserved,
    fun v => vstatWord_bits (s.voice v)⟩
  case fin =>
    rw [statusWord_getLsbD, if_pos v.isLt, fiveBits_getLsbD]
    rfl
  case play =>
    have hv := v.isLt
    rw [statusWord_getLsbD, if_neg (by omega), if_neg (by omega), if_pos (by omega), Nat.add_sub_cancel_left, fiveBits_getLsbD]
    rfl
  case allDone =>
    rw [show s.statusWord.getLsbD 16 = s.allDone from statusWord_getLsbD s 16, Bool.eq_iff_iff, allDone_iff, decide_eq_true_iff]
  case reserved =>
    rw [statusWord_getLsbD]
    grind

/-! ## What a tick and a host operation leave unchanged -/

/-- Settles O54: every other field is equal before and after, the memory as a list. -/
theorem tickTouchesOnlyVoicesAndPorts : Obligations.TickTouchesOnlyVoicesAndPorts := by
  unfold Obligations.TickTouchesOnlyVoicesAndPorts
  intro s t h
  rcases tick_cases h with ⟨-, rfl⟩ | ⟨-, hsame, hcur, -⟩
  · exact ⟨⟨rfl, rfl⟩, fun _ => ⟨rfl, rfl⟩, rfl, rfl, rfl, rfl⟩
  · refine ⟨⟨hsame.run, hsame.cfgerr⟩, fun a => ⟨?_, ?_⟩, hsame.readData, hsame.ft, hsame.pending, hcur⟩
    · rw [State.byte, State.byte, hsame.mel]
    · rw [hsame.mel]

/-- The registers that only the host writes (`10_state.md` R48) are the same in both. -/
def SameConfig (r q : VoiceRegs) : Prop := q.vcfg = r.vcfg ∧ q.duty = r.duty ∧ q.seed = r.seed ∧ q.len = r.len

theorem SameConfig.refl (r : VoiceRegs) : SameConfig r r := ⟨rfl, rfl, rfl, rfl⟩

theorem SameConfig.trans {p q r : VoiceRegs} (h : SameConfig p q) (h' : SameConfig q r) : SameConfig p r := by
  obtain ⟨hvcfg, hduty, hseed, hlen⟩ := h
  obtain ⟨hvcfg', hduty', hseed', hlen'⟩ := h'
  exact ⟨hvcfg'.trans hvcfg, hduty'.trans hduty, hseed'.trans hseed, hlen'.trans hlen⟩

theorem eventRegs_sameConfig (r : VoiceRegs) (a : FtAnswer) (d : Word) : SameConfig r (eventRegs r a d) := by
  rcases eventRegs_cases r a d with ⟨fcw, -, -, heq⟩ | ⟨-, heq⟩
  · rw [heq]; exact ⟨rfl, rfl, rfl, rfl⟩
  · rw [heq]; exact ⟨rfl, rfl, rfl, rfl⟩

theorem Scheduled.sameConfig {ev : EventIndex → Option (BitVec 96)} {ft : Key → FtAnswer} {r q : VoiceRegs} (h : Scheduled ev ft r q) :
    SameConfig r q := by
  induction h with
  | busy r hst => exact .refl r
  | finish r hst hend => exact ⟨rfl, rfl, rfl, rfl⟩
  | event r q w hst hlt hw rest ih => exact (eventRegs_sameConfig r _ _).trans ih

theorem regsSample_sameConfig (r : VoiceRegs) : SameConfig r (regsSample r) := by
  rw [regsSample_eq]
  exact ⟨rfl, rfl, rfl, rfl⟩

theorem voiceNext_sameConfig {ev : EventIndex → Option (BitVec 96)} {ft : Key → FtAnswer} {r r' : VoiceRegs} {p : SamplePort}
    (h : voiceNext ev ft r = some (r', p)) : SameConfig r r' := by
  obtain ⟨q, hq, hemit⟩ := voiceNext_scheduled h
  rcases emitNext_regs_cases hemit with ⟨-, rfl, -⟩ | ⟨-, rfl, -⟩
  · exact hq.sameConfig.trans (regsSample_sameConfig q)
  · exact hq.sameConfig

/-- While `RUN = 1` no host operation is accepted that changes `RUN`, the melody or a register (`45_host.md` R172, R180). -/
theorem HostEffect.of_running {s t : State} (h : HostEffect s t) (hrun : s.run = true) :
    t.run = true ∧ t.mel = s.mel ∧ ∀ v, t.voice v = s.voice v := by
  have hlocked : s.run ≠ false := by simp [hrun]
  cases h with
  | nothing | drop | read => exact ⟨hrun, rfl, fun _ => rfl⟩
  | start h0 | vcfg h0 | duty h0 | seed h0 | len h0 | melody h0 => exact absurd h0 hlocked

/-- Settles O57: a host operation is locked out, and a tick writes no configuration register. -/
theorem runFreezesConfiguration : Obligations.RunFreezesConfiguration := by
  unfold Obligations.RunFreezesConfiguration
  intro s t hrun hreset hstep
  obtain ⟨q, htick | heff | ⟨hpending, -⟩⟩ := step_cases hstep
  · rcases tick_cases htick with ⟨hstopped, -⟩ | ⟨-, hsame, -, hnext⟩
    · exact nomatch hstopped.symm.trans hrun
    · exact ⟨hsame.run.trans hrun, hsame.mel, fun v => voiceNext_sameConfig (hnext v)⟩
  · obtain ⟨hrun', hmel, hvoice⟩ := heff.of_running hrun
    exact ⟨hrun', hmel, fun v => hvoice v ▸ SameConfig.refl _⟩
  · exact absurd hpending (hreset q)

/-- A host operation leaves every port, and of every voice all but its configuration (`45_host.md` R174, R178). -/
theorem HostEffect.voice_eq {s t : State} (h : HostEffect s t) (v : Voice) :
    (∃ c d e l, t.voice v = { s.voice v with vcfg := c, duty := d, seed := e, len := l }) ∧ t.port v = s.port v := by
  cases h with
  | nothing | drop | start | melody | read => exact ⟨⟨_, _, _, _, rfl⟩, rfl⟩
  | vcfg _ u | duty _ u | seed _ u | len _ u =>
    refine ⟨?_, rfl⟩
    rw [State.setVoice_voice]
    split
    · next hv => subst hv; exact ⟨_, _, _, _, rfl⟩
    · exact ⟨_, _, _, _, rfl⟩

/-- Settles O58: of a voice's registers a host operation writes the configuration only, and no port. -/
theorem hostNeverMovesVoices : Obligations.HostNeverMovesVoices := by
  unfold Obligations.HostNeverMovesVoices
  intro s t rest hpending hstep v
  have heff : HostEffect (s.setPending rest) t := by
    rcases hpending with ⟨w, hw⟩ | ⟨a, ha⟩
    · exact runInput_host (x := .write w) rfl (step_cons s _ rest hw ▸ hstep)
    · exact runInput_host (x := .read a) rfl (step_cons s _ rest ha ▸ hstep)
  obtain ⟨⟨c, d, e, l, hvoice⟩, hport⟩ := heff.voice_eq v
  rw [hvoice]
  exact ⟨rfl, rfl, rfl, rfl, rfl, rfl, rfl, rfl, rfl, hport⟩

/-! ## The step and reset -/

/-- Settles O8: the two lemmas on the step, for a queue that begins with a tick and for an empty one. -/
theorem stepTakesTick : Obligations.StepTakesTick :=
  ⟨fun s rest h => step_cons s .tick rest h, step_nil⟩

/-- Settles O13: `State.reset` evaluated register by register; it lists no cell, and the reset input keeps the memory it finds. -/
theorem resetValues : Obligations.ResetValues := by
  unfold Obligations.ResetValues
  refine ⟨rfl, rfl, rfl, rfl, rfl, rfl, rfl, rfl, rfl, ?duty, ?voices, rfl, fun _ => rfl, applyReset_mel⟩
  case duty => decide
  case voices => decide

end Sys2Proof.Machine

/-! SUPPORT. Runs of ticks of a loaded machine: every tick completes, the samples of a note in closed form, and the samples a voice has still to play. -/

namespace Sys2Proof.Machine

/-! ## Ticks of a loaded machine (`70_reset_and_hazards.md` R223) -/

theorem SameOutsideVoices.refl (s : State) : SameOutsideVoices s s := ⟨rfl, rfl, rfl, rfl, rfl, rfl⟩

theorem SameOutsideVoices.trans {s t u : State} (h : SameOutsideVoices s t) (h' : SameOutsideVoices t u) : SameOutsideVoices s u :=
  ⟨h'.run.trans h.run, h'.cfgerr.trans h.cfgerr, h'.mel.trans h.mel, h'.readData.trans h.readData, h'.ft.trans h.ft,
    h'.pending.trans h.pending⟩

theorem SameOutsideVoices.eventWritten {s t : State} (h : SameOutsideVoices s t) (v : Voice) (i : EventIndex) :
    t.eventWritten v i = s.eventWritten v i := by
  simp only [State.eventWritten, State.wordWritten, h.mel]

section Voice

variable {ev : EventIndex → Option (BitVec 96)} {ft : Key → FtAnswer}

theorem eventIndex_eq (ptr : BitVec 11) : eventIndex ptr = BitVec.ofNat 10 ptr.toNat := (BitVec.ofNat_toNat 10 ptr).symm

theorem regsConsume_completes {n : Nat} {r : VoiceRegs} (hn : n ≤ r.len.toNat - r.ptr.toNat)
    (hev : ∀ i, i < r.len.toNat → r.ptr.toNat ≤ i → ev (BitVec.ofNat 10 i) ≠ none) : ∃ q, regsConsume ev ft n r = some q := by
  induction n generalizing r with
  | zero => exact ⟨_, rfl⟩
  | succ n ih =>
    have hlt : r.ptr.toNat < r.len.toNat := by omega
    obtain ⟨w, hw⟩ := Option.ne_none_iff_exists'.mp (hev _ hlt le_rfl)
    rw [← eventIndex_eq] at hw
    obtain ⟨hptr, hlen⟩ := eventRegs_ptr_len r (ft (w.extractLsb' 0 64)) (w.extractLsb' 64 32)
    have hptr' := (congrArg BitVec.toNat hptr).trans (ptr_succ_toNat hlt)
    simp only [regsConsume, hw]
    split
    · exact ih (by rw [hptr', hlen]; omega) fun i hi hle => hev i (hlen ▸ hi) (by omega)
    · exact ⟨_, rfl⟩

/-- The `VoiceTick` of a voice whose events are written completes. -/
theorem voiceNext_completes {r : VoiceRegs} (hev : ∀ i, i < r.len.toNat → r.ptr.toNat ≤ i → ev (BitVec.ofNat 10 i) ≠ none) :
    voiceNext ev ft r ≠ none := by
  rw [voiceNext, ne_eq, Option.map_eq_none_iff]
  unfold regsSchedule
  split
  · obtain ⟨q, hq⟩ := regsConsume_completes (ft := ft) le_rfl hev
    simp [hq]
  · simp

theorem Scheduled.ptr_le {r q : VoiceRegs} (h : Scheduled ev ft r q) : r.ptr.toNat ≤ q.ptr.toNat := by
  induction h with
  | busy r hst => exact le_rfl
  | finish r hst hend => exact le_rfl
  | event r q w hst hlt hw rest ih =>
    rw [(eventRegs_ptr_len r _ _).1, ptr_succ_toNat hlt] at ih
    exact (Nat.le_succ _).trans ih

theorem regsSample_ptr (r : VoiceRegs) : (regsSample r).ptr = r.ptr := by rw [regsSample_eq]

theorem regsSample_gate (r : VoiceRegs) : (regsSample r).gate = r.gate - 1 := by rw [regsSample_eq]

/-- The event pointer never moves back (`10_state.md` R26). -/
theorem voiceNext_ptr_le {r r' : VoiceRegs} {p : SamplePort} (h : voiceNext ev ft r = some (r', p)) : r.ptr.toNat ≤ r'.ptr.toNat := by
  obtain ⟨q, hq, hemit⟩ := voiceNext_scheduled h
  rcases emitNext_regs_cases hemit with ⟨-, rfl, -⟩ | ⟨-, rfl, -⟩
  · rw [regsSample_ptr]; exact hq.ptr_le
  · exact hq.ptr_le

/-- A Playing voice's `VoiceTick` is one sample (`44_scheduler.md` R141). -/
theorem voiceNext_of_playing {r r' : VoiceRegs} {p : SamplePort} (h : voiceNext ev ft r = some (r', p)) (hst : r.st = .playing) :
    r' = regsSample r ∧ p = regsPort r := by
  simpa [voiceNext, regsSchedule, emitNext, hst, eq_comm] using h

end Voice

/-- A tick of a loaded running machine completes, moves every voice by its own step and nothing else, and leaves a loaded machine. -/
theorem tick_of_loaded {s : State} (hload : Loaded s) (hrun : s.run = true) :
    ∃ t, tick s = .next t ∧ Loaded t ∧ SameOutsideVoices s t ∧
      ∀ v, voiceNext (s.melFetch v) s.lookup (s.voice v) = some (t.voice v, t.port v) := by
  rcases tick_spec s hrun with ⟨t, ht, hsame, -, hnext⟩ | ⟨-, v, hnone⟩
  · refine ⟨t, ht, fun v i hlt hle => ?_, hsame, hnext⟩
    obtain ⟨-, -, -, hlen⟩ := voiceNext_sameConfig (hnext v)
    rw [hsame.eventWritten]
    exact hload v i (hlen ▸ hlt) ((voiceNext_ptr_le (hnext v)).trans hle)
  · refine absurd hnone (voiceNext_completes fun i hlt hle hnofetch => ?_)
    rw [State.melFetch_eq_none, hload v i hlt hle] at hnofetch
    cases hnofetch

theorem ticks_succ {n : Nat} {s t u : State} (h : ticks n s = .next t) (h' : tick t = .next u) : ticks (n + 1) s = .next u := by
  show andThen (ticks n s) tick = _
  rw [h, andThen_next, h']

/-- A run of ticks: where each tick completes, keeps `P` and relates the states before and after it by `Q`, so does the last of `n + 1` ticks. -/
theorem ticks_induct {P : Nat → State → Prop} {Q : Nat → State → State → Prop} {s : State} (hstart : P 0 s)
    (hstep : ∀ n t, P n t → ∃ u, tick t = .next u ∧ P (n + 1) u ∧ Q n t u) (n : Nat) :
    ∃ t u, ticks (n + 1) s = .next u ∧ P n t ∧ Q n t u := by
  have hrun : ∃ t, ticks n s = .next t ∧ P n t := by
    induction n with
    | zero => exact ⟨s, rfl, hstart⟩
    | succ n ih =>
      obtain ⟨t, ht, hP⟩ := ih
      obtain ⟨u, hu, hP', -⟩ := hstep n t hP
      exact ⟨u, ticks_succ ht hu, hP'⟩
  obtain ⟨t, ht, hP⟩ := hrun
  obtain ⟨u, hu, -, hQ⟩ := hstep n t hP
  exact ⟨t, u, ticks_succ ht hu, hP, hQ⟩

/-! ## The samples of a note -/

/-- The waveform value that `Mux` gives (`44_scheduler.md` R149): Noise steps its register first. -/
def muxWave (r : VoiceRegs) : Int :=
  match r.vcfg.kind with
  | .pulse => pulseWave r
  | .triangle => triWave r
  | .noise => noiseWave (noiseStep r)

/-- The sample of a Playing voice, for all kinds (`44_scheduler.md` R149 to R151). -/
theorem regsPort_eq (r : VoiceRegs) :
    regsPort r = { valid := true
                   data := BitVec.ofInt 44 (muxWave r * envAmplitude r * noteLevel r.vcfg)
                   first := isFirst r
                   last := isLast r } := by
  obtain ⟨⟨kind, metal⟩, hc⟩ : ∃ c, r.vcfg = c := ⟨_, rfl⟩
  cases kind <;> cases metal <;> simp only [regsPort, regsMux, muxWave, noteLevel, hc] <;> rfl

/-- The registers `q` of a voice that has emitted `k` samples of the note that began with the registers `r`. -/
structure NoteAt (r : VoiceRegs) (k : Nat) (q : VoiceRegs) : Prop where
  vcfg : q.vcfg = r.vcfg
  duty : q.duty = r.duty
  fcw : q.fcw = r.fcw
  env : q.env.toNat = min k 882
  rdone : q.rdone = decide (883 ≤ k)
  gate : q.gate.toNat + k = r.gate.toNat
  playing : k < r.gate.toNat → q.st = .playing
  phase : r.vcfg.kind ≠ .noise → q.phase.toNat = k * r.fcw.toNat % 4294967296
  lfsr : r.vcfg.kind = .noise → q.lfsr = xorShift^[k] r.seed

theorem NoteAt.start {r : VoiceRegs} (hst : r.st = .playing) (henv : r.env = 0) (hdone : r.rdone = false) (hphase : r.phase = 0)
    (hlfsr : r.lfsr = r.seed) : NoteAt r 0 r where
  vcfg := rfl
  duty := rfl
  fcw := rfl
  env := by rw [henv]; rfl
  rdone := hdone
  gate := rfl
  playing := fun _ => hst
  phase := fun _ => by rw [hphase, Nat.zero_mul]; rfl
  lfsr := fun _ => hlfsr

/-- The ramp is over exactly from sample 882 on (`40_envelope.md` R101). -/
theorem NoteAt.ramp_over_iff {r q : VoiceRegs} {k : Nat} (h : NoteAt r k q) : (q.rdone = true ∨ 882 ≤ q.env.toNat) ↔ 882 ≤ k := by
  rw [h.rdone, h.env, decide_eq_true_iff]
  omega

theorem NoteAt.amplitude {r q : VoiceRegs} {k : Nat} (h : NoteAt r k q) : envAmplitude q = min k 882 := by
  rw [envAmplitude_eq, if_congr h.ramp_over_iff rfl rfl, h.env]
  split <;> omega

theorem gate_eq_one_iff (g : BitVec 38) : g = 1 ↔ g.toNat = 1 := BitVec.toNat_inj.symm

theorem gate_pred_toNat {g : BitVec 38} (h : 0 < g.toNat) : (g - 1).toNat = g.toNat - 1 := BitVec.toNat_sub_of_le h

/-- One more sample of the note (`44_scheduler.md` R151). -/
theorem NoteAt.next {r q : VoiceRegs} {k : Nat} (h : NoteAt r k q) (hk : k < r.gate.toNat) : NoteAt r (k + 1) (regsSample q) := by
  have hgate := h.gate
  rw [regsSample_eq]
  refine ⟨h.vcfg, h.duty, h.fcw, ?env, ?rdone, ?gate, fun hk' => ?playing, fun hkind => ?phase, fun hkind => ?lfsr⟩
  case env =>
    simp only [h.ramp_over_iff]
    split
    · rw [h.env]; omega
    · rw [BitVec.toNat_add, h.env, show (1 : BitVec 10).toNat = 1 from rfl]; omega
  case rdone =>
    rw [Bool.eq_iff_iff, Bool.or_eq_true, decide_eq_true_iff, decide_eq_true_iff, h.ramp_over_iff]
    omega
  case gate =>
    show (q.gate - 1).toNat + _ = _
    rw [gate_pred_toNat (by omega)]
    omega
  case playing =>
    dsimp only
    rw [if_neg (by rw [gate_eq_one_iff]; omega)]
    exact h.playing hk
  case phase =>
    dsimp only
    rw [if_neg (h.vcfg ▸ hkind), BitVec.toNat_add, h.phase hkind, h.fcw, Nat.mod_add_mod, Nat.succ_mul]
  case lfsr =>
    dsimp only
    rw [if_pos (h.vcfg ▸ hkind), h.lfsr hkind, Function.iterate_succ_apply']

theorem NoteAt.wave {r q : VoiceRegs} {k : Nat} (h : NoteAt r k q) : muxWave q = noteWave r k := by
  unfold muxWave noteWave
  rw [h.vcfg]
  cases hkind : r.vcfg.kind with
  | pulse =>
    have hphase := h.phase (by simp [hkind])
    simp only [pulseWave, BitVec.lt_def, hphase, h.duty]
  | triangle =>
    have hphase := h.phase (by simp [hkind])
    simp only [triWave_eq, hphase]
  | noise =>
    have hlfsr : (noiseStep q).lfsr = xorShift^[k + 1] r.seed := by
      rw [Function.iterate_succ_apply', ← h.lfsr hkind]
      rfl
    simp only [noiseWave, hlfsr]

/-- Sample `k` of the note, whole (`44_scheduler.md` R150, R152). -/
theorem NoteAt.port {r q : VoiceRegs} {k : Nat} (h : NoteAt r k q) :
    regsPort q = { valid := true
                   data := BitVec.ofInt 44 (noteWave r k * (min k 882 : Nat) * noteLevel r.vcfg)
                   first := decide (k = 0)
                   last := decide (k + 1 = r.gate.toNat) } := by
  have hfirst : isFirst q = decide (k = 0) := by
    rw [isFirst, h.rdone, Bool.eq_iff_iff, Bool.and_eq_true, beq_iff_eq, ← BitVec.toNat_inj, h.env, Bool.not_eq_true',
      decide_eq_false_iff_not, decide_eq_true_iff, show (0 : BitVec 10).toNat = 0 from rfl]
    omega
  have hlast : isLast q = decide (k + 1 = r.gate.toNat) := by
    rw [isLast, Bool.eq_iff_iff, beq_iff_eq, gate_eq_one_iff, decide_eq_true_iff, ← h.gate]
    omega
  rw [regsPort_eq, h.wave, h.amplitude, h.vcfg, hfirst, hlast]

/-- The machine `t`, `n` ticks after `s`, in the middle of the note that voice `v` plays in `s`. -/
def NoteUnderWay (s : State) (v : Voice) (n : Nat) (t : State) : Prop :=
  Loaded t ∧ t.run = true ∧ (n ≤ (s.voice v).gate.toNat → NoteAt (s.voice v) n (t.voice v))

/-- While the gate is open each tick emits the note's next sample. -/
theorem NoteUnderWay.next_tick {s t : State} {v : Voice} {n : Nat} (h : NoteUnderWay s v n t) :
    ∃ u, tick t = .next u ∧ NoteUnderWay s v (n + 1) u ∧ (n < (s.voice v).gate.toNat → u.port v = regsPort (t.voice v)) := by
  obtain ⟨hload, hrun, hnote⟩ := h
  obtain ⟨u, hu, hload', hsame, hnext⟩ := tick_of_loaded hload hrun
  have hsample : n < (s.voice v).gate.toNat → u.voice v = regsSample (t.voice v) ∧ u.port v = regsPort (t.voice v) := fun hn =>
    voiceNext_of_playing (hnext v) ((hnote hn.le).playing hn)
  refine ⟨u, hu, ⟨hload', hsame.run.trans hrun, fun hn => ?_⟩, fun hn => (hsample hn).2⟩
  rw [(hsample hn).1]
  exact (hnote (Nat.le_of_succ_le hn)).next hn

/-- Settles O51: after `k` ticks the voice is at sample `k` of its note, and the next tick emits that sample. -/
theorem noteSampleSequence : Obligations.NoteSampleSequence := by
  unfold Obligations.NoteSampleSequence
  intro s v k hload hrun hst henv hdone hphase hlfsr hk
  have hstart : NoteUnderWay s v 0 s := ⟨hload, hrun, fun _ => .start hst henv hdone hphase hlfsr⟩
  obtain ⟨t, u, hu, ⟨-, -, hnote⟩, hport⟩ := ticks_induct hstart (fun _ _ h => h.next_tick) k
  exact ⟨u, hu, (hport hk).trans (hnote hk.le).port⟩

/-! ## The samples a voice has still to play (`44_scheduler.md` R154) -/

/-- The samples of an event: none if it is skipped (`44_scheduler.md` R146, R147). -/
def noteSamples (a : FtAnswer) (d : Word) : Nat :=
  match a with
  | .miss => 0
  | .hit _ => gateLength d

/-- A fetched event takes the samples that its key's answer and its duration give. -/
theorem State.eventSamples_eq {s : State} {v : Voice} {i : Nat} {w : BitVec 96} (h : s.melFetch v (BitVec.ofNat 10 i) = some w) :
    s.eventSamples v i = noteSamples (s.lookup (w.extractLsb' 0 64)) (w.extractLsb' 64 32) := by
  obtain ⟨-, hkey, hdur⟩ := s.melFetch_eq_some v _ w h
  rw [hkey, hdur]
  rfl

/-- An event opens the gate for its samples, or leaves it shut. -/
theorem eventRegs_gate {r : VoiceRegs} (h : r.gate = 0) (a : FtAnswer) (d : Word) : (eventRegs r a d).gate.toNat = noteSamples a d := by
  rcases eventRegs_cases r a d with ⟨fcw, rfl, -, heq⟩ | ⟨hskip, heq⟩
  · rw [heq]
    exact gateLength_toNat d
  · rw [heq, h]
    rcases hskip with rfl | rfl
    · rfl
    · cases a <;> rfl

/-- The samples a voice has still to play when event `i` takes `f i`: what its gate has left, and the events from its pointer on. -/
def samplesDue (f : Nat → Nat) (r : VoiceRegs) : Nat := r.gate.toNat + ∑ i ∈ Finset.Ico r.ptr.toNat r.len.toNat, f i

theorem samplesDue_regsSample {f : Nat → Nat} {q : VoiceRegs} (h : 0 < q.gate.toNat) : samplesDue f (regsSample q) = samplesDue f q - 1 := by
  obtain ⟨-, -, -, hlen⟩ := regsSample_sameConfig q
  rw [samplesDue, samplesDue, regsSample_gate, regsSample_ptr, hlen, gate_pred_toNat h]
  exact (Nat.sub_add_comm h).symm

theorem SchedState.eq_finished : ∀ {x : SchedState}, x ≠ .idle → x ≠ .playing → x = .finished
  | .idle, h, _ => absurd rfl h
  | .playing, _, h => absurd rfl h
  | .finished, _, _ => rfl

/-- A voice that has scheduled has nothing left to play exactly if it is Finished. -/
theorem samplesDue_eq_zero_iff {f : Nat → Nat} {q : VoiceRegs} (hinv : VoiceInv true q) (hidle : q.st ≠ .idle) :
    samplesDue f q = 0 ↔ q.st = .finished := by
  constructor
  · intro hdue
    have hshut : q.gate.toNat = 0 := (Nat.eq_zero_of_add_eq_zero hdue).1
    exact SchedState.eq_finished hidle fun hst => (hinv.gate_pos hst).ne' hshut
  · intro hst
    have hshut := hinv.gate_eq_zero (hst ▸ nofun)
    obtain ⟨-, -, -, -, -, -, -, -, -, hend, -⟩ := hinv
    rw [samplesDue, hshut, hend hst, Finset.Ico_self, Finset.sum_empty]
    rfl

section Due

variable {ev : EventIndex → Option (BitVec 96)} {ft : Key → FtAnswer} {f : Nat → Nat}
  (hf : ∀ i w, ev (BitVec.ofNat 10 i) = some w → f i = noteSamples (ft (w.extractLsb' 0 64)) (w.extractLsb' 64 32))

include hf

/-- Scheduling plays nothing: the samples of the events it executes move into the gate. -/
theorem Scheduled.samplesDue_eq {r q : VoiceRegs} (h : Scheduled ev ft r q) (hinv : VoiceInv true r) : samplesDue f q = samplesDue f r := by
  induction h with
  | busy r hst => rfl
  | finish r hst hend => rfl
  | event r q w hst hlt hw rest ih =>
    obtain ⟨hptr, hlen⟩ := eventRegs_ptr_len r (ft (w.extractLsb' 0 64)) (w.extractLsb' 64 32)
    have hgate0 := hinv.gate_eq_zero (hst ▸ nofun)
    rw [eventIndex_eq] at hw
    rw [ih (hinv.after_event hst hlt _ _), samplesDue, samplesDue, eventRegs_gate hgate0, hptr, hlen, ptr_succ_toNat hlt, hgate0,
      Finset.sum_eq_sum_Ico_succ_bot hlt, hf _ w hw]
    exact (Nat.zero_add _).symm

/-- A completed `VoiceTick` plays one of the samples due; with none due the voice is Finished. -/
theorem voiceNext_samplesDue {r r' : VoiceRegs} {p : SamplePort} (h : voiceNext ev ft r = some (r', p)) (hinv : VoiceInv true r) :
    samplesDue f r' = samplesDue f r - 1 ∧ (r'.st = .finished ↔ samplesDue f r = 0) := by
  obtain ⟨q, hq, hemit⟩ := voiceNext_scheduled h
  have hinv' := hinv.after_schedule hq
  have hzero := samplesDue_eq_zero_iff (f := f) hinv' hq.not_idle
  rw [← hq.samplesDue_eq hf hinv]
  rcases emitNext_regs_cases hemit with ⟨hst, rfl, -⟩ | ⟨hst, rfl, -⟩
  · refine ⟨samplesDue_regsSample (hinv'.gate_pos hst), ?_⟩
    simp [hzero, hst, regsSample_not_finished hst]
  · have hfin := SchedState.eq_finished hq.not_idle hst
    rw [hzero.mpr hfin]
    exact ⟨rfl, by simp [hfin]⟩

end Due

/-- The machine `t`, `n` ticks after the loaded running machine `s`: each voice has played one sample a tick while it had any due. -/
structure TickedFrom (s : State) (n : Nat) (t : State) : Prop where
  inv : Inv t
  loaded : Loaded t
  run : t.run = true
  same : SameOutsideVoices s t
  due : ∀ v, samplesDue (s.eventSamples v) (t.voice v) = samplesDue (s.eventSamples v) (s.voice v) - n

/-- One more tick; after it a voice is Finished exactly if all that it had due was played before. -/
theorem TickedFrom.next_tick {s t : State} {n : Nat} (h : TickedFrom s n t) :
    ∃ u, tick t = .next u ∧ TickedFrom s (n + 1) u ∧
      ∀ v, (u.voice v).st = .finished ↔ samplesDue (s.eventSamples v) (s.voice v) ≤ n := by
  obtain ⟨u, hu, hload, hsame, hnext⟩ := tick_of_loaded h.loaded h.run
  have hvoice : ∀ v, samplesDue (s.eventSamples v) (u.voice v) = samplesDue (s.eventSamples v) (t.voice v) - 1 ∧
      ((u.voice v).st = .finished ↔ samplesDue (s.eventSamples v) (t.voice v) = 0) := fun v =>
    voiceNext_samplesDue (fun i w hw => by rw [h.same.melFetch] at hw; rw [h.same.lookup]; exact State.eventSamples_eq hw) (hnext v)
      (h.run ▸ h.inv v)
  refine ⟨u, hu, ⟨tick_inv h.inv hu, hload, hsame.run.trans h.run, h.same.trans hsame, fun v => ?_⟩, fun v => ?_⟩
  · rw [(hvoice v).1, h.due, Nat.sub_sub]
  · rw [(hvoice v).2, h.due, Nat.sub_eq_zero_iff_le]

/-- An Idle voice has due what R154 sums. -/
theorem samplesDue_of_idle {s : State} {v : Voice} (hinv : Inv s) (hst : (s.voice v).st = .idle) :
    samplesDue (s.eventSamples v) (s.voice v) = s.samplesLeft v := by
  rw [samplesDue, (hinv v).gate_eq_zero (hst ▸ nofun)]
  exact Nat.zero_add _

/-- Settles O53: a voice that begins Idle is Finished after `n + 1` ticks exactly if it had at most `n` samples due, and `all_done` joins the five. -/
theorem allDoneWhenLongestVoiceEnds : Obligations.AllDoneWhenLongestVoiceEnds := by
  unfold Obligations.AllDoneWhenLongestVoiceEnds
  intro s n hinv hload hrun hidle
  have hstart : TickedFrom s 0 s := ⟨hinv, hload, hrun, .refl s, fun _ => rfl⟩
  obtain ⟨t, u, hu, -, hfin⟩ := ticks_induct hstart (fun _ _ h => h.next_tick) n
  refine ⟨u, hu, ?_⟩
  rw [allDone_iff]
  exact forall_congr' fun v => samplesDue_of_idle hinv (hidle v) ▸ hfin v

end Sys2Proof.Machine

/-! SUPPORT. A tick compared on two machines: a voice's step rests on its own registers, its own melody words and the FrequencyTable (O47). -/

namespace Sys2Proof.Machine

/-- A fetch that has a value is the event's three words (`20_memory.md` R62). -/
theorem State.melFetch_eq_words {s : State} {v : Voice} {i : EventIndex} {w : BitVec 96} (h : s.melFetch v i = some w) :
    w = s.melWord v i 2 ++ s.melWord v i 1 ++ s.melWord v i 0 := by
  unfold State.melFetch at h
  split at h
  · exact (Option.some.inj h).symm
  · cases h

/-- Two machines with the same melody words fetch the same event, where both fetch one: which words were ever written may differ. -/
theorem State.melFetch_agree {s s' : State} {v : Voice} {i : EventIndex} {w w' : BitVec 96}
    (hmel : ∀ n, n ≤ 2 → s.melWord v i n = s'.melWord v i n) (h : s.melFetch v i = some w) (h' : s'.melFetch v i = some w') : w = w' := by
  rw [melFetch_eq_words h, melFetch_eq_words h', hmel 0 (by omega), hmel 1 (by omega), hmel 2 (by omega)]

section Isolation

variable {ev ev' : EventIndex → Option (BitVec 96)} {ft : Key → FtAnswer}

/-- `Schedule` has one outcome: two runs of its loop from the same registers, on fetches that agree where both have a value, end in the same
registers. -/
theorem Scheduled.unique (hev : ∀ i w w', ev i = some w → ev' i = some w' → w = w') {r q q' : VoiceRegs} (h : Scheduled ev ft r q)
    (h' : Scheduled ev' ft r q') : q = q' := by
  induction h with
  | busy r hst =>
    cases h' with
    | busy => rfl
    | finish _ hidle => exact absurd hidle hst
    | event _ _ _ hidle => exact absurd hidle hst
  | finish r hst hend =>
    cases h' with
    | busy _ hbusy => exact absurd hst hbusy
    | finish => rfl
    | event _ _ _ _ hlt => exact absurd hend (Nat.not_le_of_lt hlt)
  | event r q w hst hlt hw rest ih =>
    cases h' with
    | busy _ hbusy => exact absurd hst hbusy
    | finish _ _ hend => exact absurd hend (Nat.not_le_of_lt hlt)
    | event _ _ w' _ _ hw' rest' => exact ih (hev _ w w' hw hw' ▸ rest')

/-- So has a `VoiceTick`: the registers and the port after it. -/
theorem voiceNext_unique (hev : ∀ i w w', ev i = some w → ev' i = some w' → w = w') {r : VoiceRegs} {x x' : VoiceRegs × SamplePort}
    (h : voiceNext ev ft r = some x) (h' : voiceNext ev' ft r = some x') : x = x' := by
  obtain ⟨q, hq, rfl⟩ := voiceNext_scheduled h
  obtain ⟨q', hq', rfl⟩ := voiceNext_scheduled h'
  rw [hq.unique hev hq']

end Isolation

/-- A completed tick of a running machine is, for each voice, its own `VoiceTick` (`44_scheduler.md` R140). -/
theorem voiceNext_of_tick {s t : State} (hrun : s.run = true) (h : tick s = .next t) (v : Voice) :
    voiceNext (s.melFetch v) s.lookup (s.voice v) = some (t.voice v, t.port v) := by
  rcases tick_cases h with ⟨hstop, -⟩ | ⟨-, -, -, hnext⟩
  · cases hstop.symm.trans hrun
  · exact hnext v

/-- Settles O47: with `RUN = 0` both ticks are silences; with `RUN = 1` each is the voice's own `VoiceTick`, which has one outcome. -/
theorem voicesAreIsolated : Obligations.VoicesAreIsolated := by
  unfold Obligations.VoicesAreIsolated
  intro s s' t t' v hrun hvoice hlookup hmel ht ht'
  cases hgo : s.run with
  | false =>
    cases (tick_idle s hgo).symm.trans ht
    cases (tick_idle s' (hrun ▸ hgo)).symm.trans ht'
    simpa using hvoice
  | true =>
    have hev : ∀ i w w', s.melFetch v i = some w → s'.melFetch v i = some w' → w = w' := fun i _ _ => State.melFetch_agree (hmel i)
    have hnext' := voiceNext_of_tick (hrun ▸ hgo) ht' v
    rw [← hvoice, ← funext hlookup] at hnext'
    exact Prod.mk.inj (voiceNext_unique hev (voiceNext_of_tick hgo ht v) hnext')

end Sys2Proof.Machine

/-! SUPPORT. The encodings: the write decode as `30_encoding.md` R86's rows, the `KIND` field, and decode against encode in the four spaces. -/

namespace Sys2Proof

/-! ## Addresses that rows of the write decode take (`30_encoding.md` R86) -/

theorem isVoiceField_iff (x : Nat) : isVoiceField x = true ↔ ∃ v : Voice, x = v.val + 1 := by
  simp only [isVoiceField, Bool.and_eq_true, decide_eq_true_eq]
  constructor
  · rintro ⟨hlo, hhi⟩
    exact ⟨⟨x - 1, by omega⟩, (Nat.sub_add_cancel hlo).symm⟩
  · rintro ⟨v, rfl⟩
    omega

theorem isCfgAddr_iff (a : Addr) : isCfgAddr a = true ↔ ∃ v o, o ≤ 3 ∧ a.toNat = regAddr v o := by
  simp only [isCfgAddr, Bool.and_eq_true, beq_iff_eq, decide_eq_true_eq, isVoiceField_iff, regAddr]
  constructor
  · rintro ⟨⟨-, v, hv⟩, ho⟩
    exact ⟨v, a.toNat % 0x100, ho, by omega⟩
  · rintro ⟨v, o, ho, h⟩
    exact ⟨⟨by omega, v, by omega⟩, by omega⟩

theorem isMelAddr_iff (a : Addr) : isMelAddr a = true ↔ ∃ v i n, n ≤ 2 ∧ a.toNat = melAddr v i n := by
  simp only [isMelAddr, Bool.and_eq_true, decide_eq_true_eq, isVoiceField_iff]
  constructor
  · rintro ⟨⟨v, hv⟩, hn⟩
    refine ⟨v, BitVec.ofNat 10 (a.toNat / 4), a.toNat % 4, hn, ?_⟩
    simp only [melAddr, BitVec.toNat_ofNat]
    omega
  · rintro ⟨v, i, n, hn, h⟩
    have hi := i.isLt
    unfold melAddr at h
    exact ⟨⟨v, by omega⟩, by omega⟩

theorem regAddr_ne_zero (v : Voice) {o : Nat} (ho : o ≤ 6) : BitVec.ofNat 16 (regAddr v o) ≠ 0 := fun h =>
  nomatch (placeOf_reg v o ho).symm.trans (congrArg placeOf h)

theorem melAddr_ne_zero (v : Voice) (i : EventIndex) {n : Nat} (hn : n ≤ 2) : BitVec.ofNat 16 (melAddr v i n) ≠ 0 := fun h =>
  nomatch (placeOf_mel v i n hn).symm.trans (congrArg placeOf h)

/-- The address is in no row before `WR.BAD`'s. -/
structure NoEarlierRow (a : Addr) : Prop where
  ne_ctrl : a ≠ 0
  ne_reg : ∀ v o, o ≤ 3 → a.toNat ≠ regAddr v o
  ne_mel : ∀ v i n, n ≤ 2 → a.toNat ≠ melAddr v i n

theorem wrBad_wellFormed_iff (a : Addr) (d : Word) : (Instr.wrBad a d).wellFormed = true ↔ NoEarlierRow a := by
  simp only [Instr.wellFormed, Bool.and_eq_true, Bool.not_eq_true', ← Bool.not_eq_true, isCfgAddr_iff, isMelAddr_iff, isCtrlAddr,
    beq_iff_eq, not_exists, not_and]
  exact ⟨fun ⟨⟨hc, hr⟩, hm⟩ => ⟨hc, hr, hm⟩, fun ⟨hc, hr, hm⟩ => ⟨⟨hc, hr⟩, hm⟩⟩

/-! ## The write decode as the rows of `30_encoding.md` R86 -/

/-- `WriteRow a d i`: the first row of R86's table that takes a write of `d` to `a` reads it as `i`. -/
inductive WriteRow : Addr → Word → Instr → Prop
  | start (d : Word) (h : d.getLsbD 0 = true) : WriteRow 0 d .start
  | ctrlNop (d : Word) (h : d.getLsbD 0 = false) : WriteRow 0 d .ctrlNop
  | vcfg (v : Voice) (d : Word) : WriteRow (BitVec.ofNat 16 (regAddr v 0)) d (.wrVcfg v d)
  | duty (v : Voice) (d : Word) : WriteRow (BitVec.ofNat 16 (regAddr v 1)) d (.wrDuty v d)
  | seed (v : Voice) (d : Word) : WriteRow (BitVec.ofNat 16 (regAddr v 2)) d (.wrSeed v d)
  | len (v : Voice) (d : Word) : WriteRow (BitVec.ofNat 16 (regAddr v 3)) d (.wrLen v d)
  | keyLo (v : Voice) (i : EventIndex) (d : Word) : WriteRow (BitVec.ofNat 16 (melAddr v i 0)) d (.wrKeyLo v i d)
  | keyHi (v : Voice) (i : EventIndex) (d : Word) : WriteRow (BitVec.ofNat 16 (melAddr v i 1)) d (.wrKeyHi v i d)
  | dur (v : Voice) (i : EventIndex) (d : Word) : WriteRow (BitVec.ofNat 16 (melAddr v i 2)) d (.wrDur v i d)
  | bad (a : Addr) (d : Word) (h : NoEarlierRow a) : WriteRow a d (.wrBad a d)

/-- The table is total: a row takes every write. -/
theorem exists_writeRow (a : Addr) (d : Word) : ∃ i, WriteRow a d i := by
  by_cases hctrl : a = 0
  · subst hctrl
    cases h : d.getLsbD 0
    · exact ⟨_, .ctrlNop d h⟩
    · exact ⟨_, .start d h⟩
  by_cases hreg : ∃ v o, o ≤ 3 ∧ a.toNat = regAddr v o
  · obtain ⟨v, o, ho, ha⟩ := hreg
    obtain rfl : a = BitVec.ofNat 16 (regAddr v o) := by simp [← ha]
    interval_cases o
    exacts [⟨_, .vcfg v d⟩, ⟨_, .duty v d⟩, ⟨_, .seed v d⟩, ⟨_, .len v d⟩]
  by_cases hmel : ∃ v i n, n ≤ 2 ∧ a.toNat = melAddr v i n
  · obtain ⟨v, i, n, hn, ha⟩ := hmel
    obtain rfl : a = BitVec.ofNat 16 (melAddr v i n) := by simp [← ha]
    interval_cases n
    exacts [⟨_, .keyLo v i d⟩, ⟨_, .keyHi v i d⟩, ⟨_, .dur v i d⟩]
  · exact ⟨_, .bad a d ⟨hctrl, fun v o ho h => hreg ⟨v, o, ho, h⟩, fun v i n hn h => hmel ⟨v, i, n, hn, h⟩⟩⟩

theorem decodeWrite_of_noEarlierRow {a : Addr} (h : NoEarlierRow a) (d : Word) : decodeWrite a d = .wrBad a d := by
  rcases placeOf_cases a with ⟨ha, -⟩ | ⟨-, hp⟩ | ⟨v, o, ho, ha, hp⟩ | ⟨v, i, n, hn, ha, -⟩ | hp
  · exact absurd ha h.ne_ctrl
  · rw [decodeWrite, hp]
  · have h3 : 3 < o := Nat.lt_of_not_le fun h3 => h.ne_reg v o h3 ha
    rw [decodeWrite, hp]
    interval_cases o <;> rfl
  · exact absurd ha (h.ne_mel v i n hn)
  · rw [decodeWrite, hp]

/-- Each row is what the decoder reads: the table is deterministic. -/
theorem WriteRow.decodeWrite_eq {a : Addr} {d : Word} {i : Instr} (h : WriteRow a d i) : decodeWrite a d = i := by
  cases h with
  | start _ h => exact if_pos h
  | ctrlNop _ h => exact if_neg (ne_true_of_eq_false h)
  | vcfg v | duty v | seed v | len v => rw [decodeWrite, placeOf_reg v _ (by omega)]; rfl
  | keyLo v i | keyHi v i | dur v i => rw [decodeWrite, placeOf_mel v i _ (by omega)]; rfl
  | bad _ _ h => exact decodeWrite_of_noEarlierRow h d

/-- What the decoder reads from a host write is in the table. -/
theorem writeRow_decodeWrite (a : Addr) (d : Word) : WriteRow a d (decodeWrite a d) := by
  obtain ⟨i, h⟩ := exists_writeRow a d
  rwa [h.decodeWrite_eq]

theorem WriteRow.decode_eq {a : Addr} {d : Word} {i : Instr} (h : WriteRow a d i) : decode (.hostWrite (a ++ d)) = i := by
  rw [decode_hostWrite, h.decodeWrite_eq]

theorem WriteRow.wellFormed {a : Addr} {d : Word} {i : Instr} (h : WriteRow a d i) : i.wellFormed = true := by
  cases h with
  | bad _ _ h => exact (wrBad_wellFormed_iff a d).mpr h
  | _ => rfl

/-- The encoder writes a row's instruction at the row's address, with the data but for the ignored bits of a `CTRL` write (log 13). -/
theorem WriteRow.encode_eq {a : Addr} {d : Word} {i : Instr} (h : WriteRow a d i) :
    encode i = .hostWrite (a ++ if a = 0 then d &&& 1 else d) := by
  cases h with
  | start _ h | ctrlNop _ h =>
    rw [if_pos rfl, show d &&& 1 = _ from BitVec.and_one_eq_setWidth_ofBool_getLsbD, h]
    rfl
  | vcfg v | duty v | seed v | len v => rw [if_neg (regAddr_ne_zero v (by omega))]; rfl
  | keyLo v i | keyHi v i | dur v i => rw [if_neg (melAddr_ne_zero v i (by omega))]; rfl
  | bad _ _ h => rw [if_neg h.ne_ctrl]; rfl

/-! ## The voice configuration word (`30_encoding.md` R81) -/

/-- The two bits of the `KIND` field. -/
theorem kind_eq_bits (w : Word) : w.extractLsb' 0 2 = BitVec.ofBool (w.getLsbD 1) ++ BitVec.ofBool (w.getLsbD 0) := by
  apply BitVec.eq_of_getLsbD_eq
  intro b hb
  rw [BitVec.getLsbD_extractLsb', BitVec.getLsbD_append, BitVec.getLsbD_ofBool, BitVec.getLsbD_ofBool]
  interval_cases b <;> simp

/-- Bits 2:0 of a word, as the encoder puts `KIND` and `METAL` together. -/
theorem vcfgWord_fields (w : Word) : vcfgWord (w.extractLsb' 0 2) (w.getLsbD 2) = w &&& 7 := by
  apply BitVec.eq_of_getLsbD_eq
  intro b hb
  rw [vcfgWord, BitVec.getLsbD_append, BitVec.getLsbD_append, BitVec.getLsbD_and]
  interval_cases b <;> simp

/-- The operation by the value of `KIND` and, for Noise, `METAL`. -/
theorem decode_vcfg (w : Word) :
    decode (.vcfg w) =
      if w.extractLsb' 0 2 = 0 then .pulse (w.getLsbD 2)
      else if w.extractLsb' 0 2 = 1 then .triangle (w.getLsbD 2)
      else if w.extractLsb' 0 2 = 3 then .vcfgRsvd (w.getLsbD 2)
      else if w.getLsbD 2 then .noiseM else .noise := by
  show decodeVcfg w = _
  rw [kind_eq_bits, decodeVcfg]
  cases w.getLsbD 1 <;> cases w.getLsbD 0 <;> rfl

/-- A configuration word comes back but for bits 31:3, which the encoder writes as 0 (log 13). -/
theorem encode_decode_vcfg (w : Word) : encode (decode (.vcfg w)) = .vcfg (w &&& 7) := by
  rw [decode_vcfg, ← vcfgWord_fields]
  split
  · next h => rw [h]; rfl
  split
  · next h => rw [h]; rfl
  split
  · next h => rw [h]; rfl
  · next h0 h1 h3 =>
    have h2 : w.extractLsb' 0 2 = 2 := by bv_omega
    rw [h2]
    cases w.getLsbD 2 <;> rfl

/-! ## The obligations -/

/-- Settles O1, by the constructors: the host writes by their row of R86, the other three spaces by their fields. -/
theorem decodeEncodeRoundTrip : Obligations.DecodeEncodeRoundTrip := by
  unfold Obligations.DecodeEncodeRoundTrip
  intro i hi
  cases i with
  | note key dur =>
    show Instr.note ((dur ++ key).extractLsb' 0 64) ((dur ++ key).extractLsb' 64 32) = _
    rw [BitVec.extractLsb'_append_eq_right, BitVec.extractLsb'_append_eq_left]
  | pulse m | triangle m | vcfgRsvd m => cases m <;> rfl
  | noise | noiseM | rd => rfl
  | start => exact (WriteRow.start 1 rfl).decode_eq
  | ctrlNop => exact (WriteRow.ctrlNop 0 rfl).decode_eq
  | wrVcfg v d => exact (WriteRow.vcfg v d).decode_eq
  | wrDuty v d => exact (WriteRow.duty v d).decode_eq
  | wrSeed v d => exact (WriteRow.seed v d).decode_eq
  | wrLen v d => exact (WriteRow.len v d).decode_eq
  | wrKeyLo v k d => exact (WriteRow.keyLo v k d).decode_eq
  | wrKeyHi v k d => exact (WriteRow.keyHi v k d).decode_eq
  | wrDur v k d => exact (WriteRow.dur v k d).decode_eq
  | wrBad a d => exact (WriteRow.bad a d ((wrBad_wellFormed_iff a d).mp hi)).decode_eq

/-- Settles O2: `WR.BAD` is read only in its own row. -/
theorem decodedIsWellFormed : Obligations.DecodedIsWellFormed := by
  unfold Obligations.DecodedIsWellFormed
  intro e
  cases e with
  | event w | hostRead a => rfl
  | vcfg w =>
    rw [decode_vcfg]
    split_ifs <;> rfl
  | hostWrite w => exact (writeRow_decodeWrite _ _).wellFormed

/-- Settles O3: the event and the read word whole, the configuration word by its fields, the host write by its row. -/
theorem encodeDecodeKeepsBits : Obligations.EncodeDecodeKeepsBits := by
  unfold Obligations.EncodeDecodeKeepsBits
  refine ⟨fun w => ?_, fun a => rfl, encode_decode_vcfg, fun a d => ?_⟩
  · show Encoded.event (w.extractLsb' 64 32 ++ w.extractLsb' 0 64) = _
    rw [BitVec.extractLsb'_append_extractLsb'_eq_extractLsb' (show 64 = 0 + 64 from rfl), BitVec.extractLsb'_eq_self]
  · rw [decode_hostWrite, (writeRow_decodeWrite a d).encode_eq]

/-- Settles O4: each clause is one row. -/
theorem hostWriteDecodeRows : Obligations.HostWriteDecodeRows := by
  unfold Obligations.HostWriteDecodeRows
  refine ⟨fun d => ?_, fun v d => (WriteRow.vcfg v d).decode_eq, fun v d => (WriteRow.duty v d).decode_eq,
    fun v d => (WriteRow.seed v d).decode_eq, fun v d => (WriteRow.len v d).decode_eq, fun v i d => (WriteRow.keyLo v i d).decode_eq,
    fun v i d => (WriteRow.keyHi v i d).decode_eq, fun v i d => (WriteRow.dur v i d).decode_eq,
    fun a d hctrl hreg hmel => (WriteRow.bad a d ⟨hctrl, hreg, hmel⟩).decode_eq⟩
  split
  · next h => exact (WriteRow.start d h).decode_eq
  · next h => exact (WriteRow.ctrlNop d (eq_false_of_ne_true h)).decode_eq

/-- Settles O5. -/
theorem vcfgWordSelectsOperation : Obligations.VcfgWordSelectsOperation := decode_vcfg

/-- Settles O6, by evaluation. -/
theorem specWordsDecode : Obligations.SpecWordsDecode := by
  unfold Obligations.SpecWordsDecode
  decide

end Sys2Proof

/-! SUPPORT. The reserved configuration word and the gate length of a duration. -/

namespace Sys2Proof.Machine

/-- A dropped write's whole effect (`45_host.md` R177). -/
theorem onlySetsCfgerr_dropWrite (s : State) : OnlySetsCfgerr s (dropWrite s) :=
  ⟨rfl, rfl, fun _ => rfl, fun _ => ⟨rfl, rfl⟩, ⟨fun _ => rfl, rfl⟩, rfl, rfl, rfl⟩

/-- A write of the reserved `KIND = 3` is dropped in either phase (`30_encoding.md` R87). -/
theorem exec_wrVcfg_of_reserved (s : State) (v : Voice) {d : Word} (h : d.extractLsb' 0 2 = 3) :
    exec (.wrVcfg v d) s = .next (dropWrite s) := by
  show execWrVcfg v d s = _
  rw [execWrVcfg, (vcfgOfWord_eq_none d).mpr h]

/-- Settles O24: the row and the write both answer `dropWrite`. -/
theorem reservedVcfgWordIsDropped : Obligations.ReservedVcfgWordIsDropped := by
  unfold Obligations.ReservedVcfgWordIsDropped
  intro s m v d h
  refine ⟨?_, ⟨dropWrite s, rfl, onlySetsCfgerr_dropWrite s⟩, exec_wrVcfg_of_reserved s v h⟩
  rw [decode_vcfg, h]
  rfl

/-- The gate length is `DUR * 44.1` rounded down (`44_scheduler.md` R147). -/
theorem gateLength_floor (dur : Word) :
    10 * gateLength dur ≤ 441 * dur.toNat ∧ 441 * dur.toNat < 10 * gateLength dur + 10 := by
  unfold gateLength Config.samplesPerTenMs
  omega

/-- Settles O31: every bound follows from the rounding and `DUR < 2^32`. -/
theorem gateLengthBounds : Obligations.GateLengthBounds := by
  unfold Obligations.GateLengthBounds
  intro dur
  have hmax := dur.isLt
  obtain ⟨hle, hlt⟩ := gateLength_floor dur
  refine ⟨by omega, gateLength_lt dur, gateLength_eq_zero dur, fun h => ?_, hle, hlt⟩
  have hpos : dur.toNat ≠ 0 := fun h0 => h (BitVec.eq_of_toNat_eq h0)
  omega

end Sys2Proof.Machine

/-! SUPPORT. The envelope ramp from its start, apart from the samples it shapes. -/

namespace Sys2Proof.Machine

/-- The ramp registers after `k` envelope steps of a ramp that began at 0 (`40_envelope.md` R100, R101). -/
structure RampAt (k : Nat) (q : VoiceRegs) : Prop where
  env : q.env.toNat = min k 882
  rdone : q.rdone = decide (883 ≤ k)

theorem RampAt.start {r : VoiceRegs} (henv : r.env = 0) (hdone : r.rdone = false) : RampAt 0 r where
  env := by rw [henv]; rfl
  rdone := hdone

/-- `RDONE` lags the full ramp by one step, and either of them ends the count. -/
theorem RampAt.over_iff {k : Nat} {q : VoiceRegs} (h : RampAt k q) : (q.rdone = true ∨ 882 ≤ q.env.toNat) ↔ 882 ≤ k := by
  rw [h.rdone, h.env, decide_eq_true_iff]
  omega

theorem RampAt.amplitude {k : Nat} {q : VoiceRegs} (h : RampAt k q) : envAmplitude q = min k 882 := by
  rw [envAmplitude_eq, if_congr h.over_iff rfl rfl, h.env]
  split <;> omega

theorem RampAt.next {k : Nat} {q : VoiceRegs} (h : RampAt k q) : RampAt (k + 1) (envStep q) := by
  rw [envStep_eq]
  refine ⟨?env, ?rdone⟩
  case env =>
    simp only [h.over_iff]
    split
    · rw [h.env]; omega
    · rw [BitVec.toNat_add, h.env, show (1 : BitVec 10).toNat = 1 from rfl]; omega
  case rdone =>
    rw [Bool.eq_iff_iff, Bool.or_eq_true, decide_eq_true_iff, decide_eq_true_iff, h.over_iff]
    omega

theorem RampAt.iterate {r : VoiceRegs} (h : RampAt 0 r) (k : Nat) : RampAt k (envStep^[k] r) := by
  induction k with
  | zero => exact h
  | succ k ih =>
    rw [Function.iterate_succ_apply']
    exact ih.next

/-- Settles O35, by induction on the number of envelope steps. -/
theorem envelopeAtSampleK : Obligations.EnvelopeAtSampleK := by
  unfold Obligations.EnvelopeAtSampleK
  intro r k henv hdone
  have hramp := (RampAt.start henv hdone).iterate k
  exact ⟨hramp.amplitude, hramp.env, hramp.rdone⟩

end Sys2Proof.Machine

/-! SUPPORT. The per-sample operations: what any emitted sample does to the state, and the pulse over the phases and over a cycle of the
accumulator (`41_pulse.md`). -/

namespace Sys2Proof.Machine

/-! ## One emitted sample -/

/-- The registers an emitted sample leaves, as one record (`44_scheduler.md` R151). -/
theorem gateStep_envStep_eq (r : VoiceRegs) (adv : Bool) :
    gateStep (if adv then phaseAdvance (envStep r) else envStep r) =
      { r with
        env := if r.rdone = true ∨ 882 ≤ r.env.toNat then r.env else r.env + 1
        rdone := r.rdone || decide (882 ≤ r.env.toNat)
        gate := r.gate - 1
        st := if r.gate = 1 then .idle else r.st
        phase := if adv then r.phase + r.fcw else r.phase } := by
  rw [gateStep_eq, envStep_eq]
  cases adv <;> rfl

/-- The emitted word and its two marks by the registers (`44_scheduler.md` R150, R151). -/
theorem samplePort_eq (r : VoiceRegs) (w : Int) (g : Nat) :
    samplePort r w g =
      { valid := true
        data := BitVec.ofInt 44 (w * (if r.rdone = true ∨ 882 ≤ r.env.toNat then 882 else r.env.toNat : Nat) * g)
        first := decide (r.env = 0 ∧ r.rdone = false)
        last := decide (r.gate = 1) } := by
  have hfirst : isFirst r = decide (r.env = 0 ∧ r.rdone = false) := by
    rw [Bool.eq_iff_iff]
    simp [isFirst]
  rw [samplePort, envAmplitude_eq, hfirst]
  rfl

theorem emitSample_onlyStepsVoice (r : VoiceRegs) (w : Int) (g : Nat) (adv : Bool) (s : State) :
    OnlyStepsVoice s.cur s (emitSample r w g adv s) := by
  obtain ⟨hother, -, -⟩ := emitSample_frame r w g adv s
  exact ⟨⟨rfl, rfl⟩, fun u hu => (hother u hu).1, fun _ => ⟨rfl, rfl⟩, fun u hu => (hother u hu).2, rfl, rfl, rfl, rfl⟩

/-- Every oscillator's sample, whatever the oscillator has put in `LFSR` before it (`44_scheduler.md` R151, `43_noise.md` R130). -/
theorem emitSample_emitsSample (s : State) (lfsr : Word) (w : Int) (g : Nat) (adv : Bool) :
    EmitsSample s (emitSample { s.voice s.cur with lfsr := lfsr } w g adv s) w g := by
  obtain ⟨-, hport, hvoice⟩ := emitSample_frame { s.voice s.cur with lfsr := lfsr } w g adv s
  rw [samplePort_eq] at hport
  rw [gateStep_envStep_eq] at hvoice
  refine ⟨hport, ?_⟩
  rw [hvoice]
  exact ⟨rfl, rfl, rfl, rfl, ⟨rfl, rfl, rfl, rfl, rfl, rfl, rfl⟩, emitSample_onlyStepsVoice ..⟩

/-- The phase moves on by `FCW` exactly for the oscillators that advance it (`41_pulse.md` R111). -/
theorem emitSample_phase (r : VoiceRegs) (w : Int) (g : Nat) (adv : Bool) (s : State) :
    ((emitSample r w g adv s).voice s.cur).phase = if adv then r.phase + r.fcw else r.phase := by
  obtain ⟨-, -, hvoice⟩ := emitSample_frame r w g adv s
  rw [hvoice, gateStep_envStep_eq]

/-- The pulse by the integer values of phase and duty (`41_pulse.md` R110). -/
theorem pulseWave_eq (r : VoiceRegs) :
    pulseWave r = if r.phase.toNat < r.duty.toNat then 1073741824 else -1073741824 := by
  simp only [pulseWave, BitVec.lt_def]

/-- Settles O32: the sample is the shared one, with the pulse as its waveform. -/
theorem pulseEmitsSample : Obligations.PulseEmitsSample := by
  unfold Obligations.PulseEmitsSample
  intro s m _ _
  refine ⟨emitSample (s.voice s.cur) (pulseWave (s.voice s.cur)) 5 true s, rfl, ?_, ?_, emitSample_lfsr rfl⟩
  · rw [← pulseWave_eq]
    exact emitSample_emitsSample s (s.voice s.cur).lfsr (pulseWave (s.voice s.cur)) 5 true
  · rw [emitSample_phase, if_pos rfl, BitVec.toNat_add]

/-! ## The phase over a note -/

/-- `k` advances as one record: the phase has moved on by `k * FCW` (`41_pulse.md` R111). -/
theorem phaseAdvance_iterate (r : VoiceRegs) (k : Nat) :
    phaseAdvance^[k] r = { r with phase := r.phase + BitVec.ofNat 32 k * r.fcw } := by
  induction k with
  | zero => simp
  | succ k ih =>
    rw [Function.iterate_succ_apply', ih, phaseAdvance, BitVec.ofNat_add, BitVec.add_mul, BitVec.one_mul, BitVec.add_assoc]

/-- `k * FCW` as a 32-bit product is the integer product mod `2^32`. -/
theorem toNat_ofNat_mul (k : Nat) (f : Word) : (BitVec.ofNat 32 k * f).toNat = k * f.toNat % 4294967296 := by
  rw [BitVec.toNat_mul, BitVec.toNat_ofNat, Nat.mod_mul_mod]

/-- Settles O36: `k` advances from 0 leave the product. -/
theorem phaseAtSampleK : Obligations.PhaseAtSampleK := by
  unfold Obligations.PhaseAtSampleK
  intro r k hphase
  rw [phaseAdvance_iterate, hphase, zero_add, toNat_ofNat_mul]

/-! ## High and low phases -/

theorem pulseWave_high_iff (r : VoiceRegs) : pulseWave r = 1073741824 ↔ r.phase.toNat < r.duty.toNat := by
  rw [pulseWave_eq]
  split <;> simp [*]

/-- The words below a word are as many as its value. -/
theorem ncard_toNat_lt (d : Word) : Set.ncard { p : Word | p.toNat < d.toNat } = d.toNat := by
  have himage : BitVec.toNat '' { p : Word | p.toNat < d.toNat } = Finset.range d.toNat := by
    rw [Finset.coe_range]
    ext n
    constructor
    · rintro ⟨p, hp, rfl⟩
      exact hp
    · intro hn
      exact ⟨BitVec.ofNatLT n (lt_trans hn d.isLt), hn, rfl⟩
  rw [← Set.ncard_image_of_injective _ fun _ _ => BitVec.eq_of_toNat_eq, himage, Set.ncard_coe_finset, Finset.card_range]

/-- Settles O37: the high phases are those below `DUTY`. -/
theorem pulseHighForDutyPhases : Obligations.PulseHighForDutyPhases := by
  unfold Obligations.PulseHighForDutyPhases
  intro r
  simp only [pulseWave_high_iff]
  exact ncard_toNat_lt r.duty

/-! ## The balance at half duty -/

/-- Half a turn of the phase turns the half-duty pulse over (`41_pulse.md` R114). -/
theorem pulseWave_half_turn {r : VoiceRegs} (hduty : r.duty = 0x80000000) :
    pulseWave { r with phase := r.phase + 0x80000000 } = -pulseWave r := by
  have hlt := r.phase.isLt
  have hval : r.duty.toNat = 2147483648 := by rw [hduty]; rfl
  have hturn : (r.phase + 0x80000000).toNat = (r.phase.toNat + 2147483648) % 4294967296 := BitVec.toNat_add ..
  simp only [pulseWave_eq, hval, hturn]
  split <;> split <;> omega

/-- A full cycle of the accumulator is an even number of advances, and half of it moves the phase by half a turn: with `FCW = 2^j * c` and `c`
odd the cycle is `2^(32-j)`, and `2^(31-j) * FCW = 2^31 * c`. -/
theorem cycle_half {f : Nat} (hpos : 0 < f) (hlt : f < 4294967296) :
    ∃ h, 4294967296 / Nat.gcd f 4294967296 = h + h ∧ h * f % 4294967296 = 2147483648 := by
  obtain ⟨j, c, hodd, rfl⟩ := Nat.exists_eq_two_pow_mul_odd hpos.ne'
  have hj : j < 32 := (Nat.pow_lt_pow_iff_right one_lt_two).mp ((Nat.le_mul_of_pos_right _ hodd.pos).trans_lt hlt)
  have hhalf : 2 ^ j * 2 ^ (31 - j) = 2147483648 := by
    rw [← pow_add, Nat.add_sub_cancel' (Nat.le_of_lt_succ hj)]
    norm_num
  have hcycle : 2 ^ j * (2 ^ (31 - j) * 2) = 4294967296 := by rw [← mul_assoc, hhalf]; rfl
  have hgcd : Nat.gcd (2 ^ j * c) 4294967296 = 2 ^ j := by
    have hcop : Nat.Coprime c (2 ^ (31 - j) * 2) := hodd.coprime_two_right.pow_right (31 - j + 1)
    rw [← hcycle, Nat.gcd_mul_left, hcop.gcd_eq_one, mul_one]
  refine ⟨2 ^ (31 - j), ?_, ?_⟩
  · rw [hgcd, Nat.div_eq_of_eq_mul_right (by positivity) hcycle.symm, mul_two]
  · obtain ⟨m, rfl⟩ := hodd
    rw [mul_left_comm, ← mul_assoc, hhalf]
    omega

/-- Two predicates that change places after half a range hold equally often in it. -/
theorem count_eq_of_swap {p q : Nat → Prop} [DecidablePred p] [DecidablePred q] {h : Nat} (hpq : ∀ k, p (h + k) ↔ q k)
    (hqp : ∀ k, q (h + k) ↔ p k) : Nat.count p (h + h) = Nat.count q (h + h) := by
  simp only [Nat.count_add, hpq, hqp]
  exact Nat.add_comm ..

/-- Settles O38: the second half of a cycle is the first turned over. -/
theorem halfDutyPulseIsBalanced : Obligations.HalfDutyPulseIsBalanced := by
  unfold Obligations.HalfDutyPulseIsBalanced
  intro r hduty hfcw n
  obtain ⟨h, hn, hhalf⟩ := cycle_half (Nat.pos_of_ne_zero fun h0 => hfcw (BitVec.eq_of_toNat_eq h0)) r.fcw.isLt
  have hturn : BitVec.ofNat 32 h * r.fcw = 0x80000000 := BitVec.eq_of_toNat_eq ((toNat_ofNat_mul h r.fcw).trans hhalf)
  have hneg : ∀ k, pulseWave (phaseAdvance^[h + k] r) = -pulseWave (phaseAdvance^[k] r) := by
    intro k
    rw [Function.iterate_add_apply, phaseAdvance_iterate r k, phaseAdvance_iterate _ h, hturn]
    exact pulseWave_half_turn hduty
  rw [← Nat.count_eq_card_filter_range, ← Nat.count_eq_card_filter_range, show n = h + h from hn]
  exact count_eq_of_swap (fun k => by rw [hneg]; omega) fun k => by rw [hneg]; omega

end Sys2Proof.Machine

/-! SUPPORT. The triangle: its emitted sample, its 32-bit form, its symmetry (`42_triangle.md`). -/

namespace Sys2Proof.Machine

/-- Settles O33: the sample is the shared one, with the folded ramp as its waveform. -/
theorem triangleEmitsSample : Obligations.TriangleEmitsSample := by
  unfold Obligations.TriangleEmitsSample
  intro s m _ _
  refine ⟨emitSample (s.voice s.cur) (triWave (s.voice s.cur)) 5 true s, rfl, ?sample, ?phase, emitSample_lfsr rfl⟩
  case sample =>
    rw [← triWave_eq]
    exact emitSample_emitsSample s (s.voice s.cur).lfsr (triWave (s.voice s.cur)) 5 true
  case phase => rw [emitSample_phase, if_pos rfl, BitVec.toNat_add]

/-! ## The 32-bit form -/

/-- A signed 32-bit subtraction does not overflow if its exact result fits. -/
theorem not_ssubOverflow {x y : Word} (hlo : -2147483648 ≤ x.toInt - y.toInt) (hhi : x.toInt - y.toInt < 2147483648) :
    ¬ BitVec.ssubOverflow x y = true := by
  rw [BitVec.ssubOverflow, Bool.or_eq_true, decide_eq_true_iff, decide_eq_true_iff]
  omega

/-- The 32-bit ramp is exact (`42_triangle.md` R121). -/
theorem ramp_toInt (x : BitVec 31) : ((0#1 ++ x : BitVec 32) - 0x40000000#32).toInt = x.toNat - 1073741824 := by
  have hlt := x.isLt
  have hbits : (0#1 ++ x : BitVec 32).toInt = x.toNat := BitVec.toInt_zero_append
  have hone : (0x40000000#32).toInt = 1073741824 := by decide
  have hfits : ¬ BitVec.ssubOverflow (0#1 ++ x : BitVec 32) 0x40000000#32 = true := by
    apply not_ssubOverflow <;> rw [hbits, hone] <;> omega
  rw [BitVec.toInt_sub_of_not_ssubOverflow hfits, hbits, hone]

/-- The turned ramp is exact: the ramp is never `-2^31` (`42_triangle.md` R121). -/
theorem neg_ramp_toInt (x : BitVec 31) :
    (0#32 - ((0#1 ++ x : BitVec 32) - 0x40000000#32)).toInt = -((x.toNat : Int) - 1073741824) := by
  have hlt := x.isLt
  have hzero : (0#32).toInt = 0 := by decide
  have hfits : ¬ BitVec.ssubOverflow 0#32 ((0#1 ++ x : BitVec 32) - 0x40000000#32) = true := by
    apply not_ssubOverflow <;> rw [ramp_toInt, hzero] <;> omega
  rw [BitVec.toInt_sub_of_not_ssubOverflow hfits, ramp_toInt, hzero, zero_sub]

/-- Settles O39: ramp and turned ramp are exact, and bit 31 of the phase selects the same one in both forms. -/
theorem triangleBitLevelForm : Obligations.TriangleBitLevelForm := by
  unfold Obligations.TriangleBitLevelForm
  intro r ramp32
  refine ⟨ramp_toInt _, ?_⟩
  unfold triWave
  split
  · exact (neg_ramp_toInt _).symm
  · exact (ramp_toInt _).symm

/-! ## The symmetry -/

/-- Running the phase backwards gives the same triangle: `p` and `2^32 - p` lie on opposite slopes at the same height (`42_triangle.md` R122). -/
theorem triWave_neg_phase (r : VoiceRegs) : triWave { r with phase := -r.phase } = triWave r := by
  have hlt := r.phase.isLt
  have hneg : (-r.phase).toNat = (4294967296 - r.phase.toNat) % 4294967296 := BitVec.toNat_neg ..
  simp only [triWave_eq, hneg]
  split <;> split <;> omega

/-- Settles O40: the bounds are `triWave_bounds`, the symmetry is `triWave_neg_phase`. -/
theorem triangleBoundedAndSymmetric : Obligations.TriangleBoundedAndSymmetric := by
  unfold Obligations.TriangleBoundedAndSymmetric
  intro r
  obtain ⟨hlo, hhi⟩ := triWave_bounds r
  exact ⟨hlo, hhi, triWave_neg_phase r⟩

end Sys2Proof.Machine

/-! SUPPORT. The noise: its emitted sample, and the step of its register as a bijection (`43_noise.md`). -/

namespace Sys2Proof.Machine

/-! ## The emitted sample -/

/-- The emitted sample of a voice whose register has stepped, at any level (`43_noise.md` R130, `44_scheduler.md` R151). -/
theorem emitSample_noise_emitsNoise (s : State) (g : Nat) :
    EmitsNoise s (emitSample (noiseStep (s.voice s.cur)) (noiseWave (noiseStep (s.voice s.cur))) g false s) g := by
  have hlfsr : ((emitSample (noiseStep (s.voice s.cur)) (noiseWave (noiseStep (s.voice s.cur))) g false s).voice s.cur).lfsr =
      xorShift (s.voice s.cur).lfsr := emitSample_lfsr rfl
  refine ⟨hlfsr, emitSample_phase .., ?_⟩
  rw [hlfsr]
  exact emitSample_emitsSample s (xorShift (s.voice s.cur).lfsr) (noiseWave (noiseStep (s.voice s.cur))) g false

/-- Settles O34: the two operations are one sample at two levels. -/
theorem noiseEmitsSample : Obligations.NoiseEmitsSample := by
  unfold Obligations.NoiseEmitsSample
  intro s _ _
  exact ⟨⟨_, rfl, emitSample_noise_emitsNoise s 5⟩, ⟨_, rfl, emitSample_noise_emitsNoise s 4⟩⟩

/-! ## The register's step (`43_noise.md` R131, R132) -/

theorem xor_shiftRight_xor (x y : Word) (n : Nat) :
    (x ^^^ y) ^^^ ((x ^^^ y) >>> n) = (x ^^^ (x >>> n)) ^^^ (y ^^^ (y >>> n)) := by
  rw [BitVec.ushiftRight_xor_distrib]
  ac_rfl

theorem xor_shiftLeft_xor (x y : Word) (n : Nat) :
    (x ^^^ y) ^^^ ((x ^^^ y) <<< n) = (x ^^^ (x <<< n)) ^^^ (y ^^^ (y <<< n)) := by
  rw [BitVec.shiftLeft_xor_distrib]
  ac_rfl

/-- The noise step is linear over exclusive or, as its three parts are. -/
theorem xorShift_xor (x y : Word) : xorShift (x ^^^ y) = xorShift x ^^^ xorShift y := by
  simp only [xorShift, xor_shiftRight_xor, xor_shiftLeft_xor]

theorem xorShift_eq_zero {x : Word} (h : xorShift x = 0) : x = 0 := not_imp_not.mp xorShift_ne_zero h

/-- A linear map that is 0 only at 0 is injective. -/
theorem xorShift_injective : Function.Injective xorShift := by
  intro x y h
  have hxor : xorShift (x ^^^ y) = 0 := by rw [xorShift_xor, h, BitVec.xor_self]; rfl
  exact BitVec.xor_eq_zero_iff.mp (xorShift_eq_zero hxor)

/-- Settles O41: the step is injective on finitely many words, so it is a bijection. -/
theorem xorShiftIsBijection : Obligations.XorShiftIsBijection := by
  unfold Obligations.XorShiftIsBijection
  exact ⟨rfl, Finite.injective_iff_bijective.mp xorShift_injective, fun _ => xorShift_eq_zero⟩

end Sys2Proof.Machine

/-! SUPPORT. The scheduler on the whole state: a melody event, the loop of `Schedule` as `44_scheduler.md` R145 writes it, and the order of the
five voices' turns. -/

namespace Sys2Proof.Machine

/-! ## A melody event (`44_scheduler.md` R146 to R148) -/

/-- `NOTE` writes the registers of the voice in turn. -/
theorem exec_note (key : Key) (dur : Word) (s : State) :
    exec (.note key dur) s = .next (s.setVoice s.cur (eventRegs (s.voice s.cur) (s.lookup key) dur)) := rfl

theorem onlyWritesVoice_setVoice (s : State) (v : Voice) (r : VoiceRegs) : OnlyWritesVoice v s (s.setVoice v r) :=
  ⟨⟨rfl, rfl⟩, fun u hu => s.setVoice_voice_other v u r hu, fun _ => ⟨rfl, rfl⟩, ⟨fun _ => rfl, rfl⟩, rfl, rfl, rfl⟩

/-- An event that plays starts its note at the next pointer. -/
theorem eventRegs_of_plays (r : VoiceRegs) (fcw : Word) {d : Word} (h : d ≠ 0) :
    eventRegs r (.hit fcw) d = noteStart { r with ptr := r.ptr + 1 } fcw (gateLength d) :=
  if_neg fun h0 => h ((gateLength_eq_zero d).mp h0)

/-- A skipped event only moves the pointer on. -/
theorem eventRegs_of_skipped (r : VoiceRegs) {a : FtAnswer} {d : Word} (h : a = .miss ∨ d = 0) :
    eventRegs r a d = { r with ptr := r.ptr + 1 } := by
  rcases eventRegs_cases r a d with ⟨fcw, rfl, hd, -⟩ | ⟨-, heq⟩
  · exact absurd (h.resolve_left nofun) hd
  · exact heq

/-- Settles O29: the event is a note start, and `NOTE` writes one voice's registers only. -/
theorem noteStartsOnHit : Obligations.NoteStartsOnHit := by
  unfold Obligations.NoteStartsOnHit
  intro s key dur fcw hkey hdur
  refine ⟨_, exec_note key dur s, ?_⟩
  rw [hkey, eventRegs_of_plays _ fcw hdur, State.setVoice_voice_same]
  exact ⟨rfl, rfl, gateLength_toNat dur, rfl, rfl, rfl, rfl, rfl, rfl, rfl, rfl, rfl, rfl, onlyWritesVoice_setVoice ..⟩

/-- Settles O30: the event is skipped, and `NOTE` writes one voice's registers only. -/
theorem noteSkippedOnMissOrZero : Obligations.NoteSkippedOnMissOrZero := by
  unfold Obligations.NoteSkippedOnMissOrZero
  intro s key dur hskip
  refine ⟨_, exec_note key dur s, ?_, onlyWritesVoice_setVoice ..⟩
  rw [State.setVoice_voice_same, eventRegs_of_skipped _ hskip]

/-! ## The loop of `Schedule` (`44_scheduler.md` R145) -/

theorem schedule_of_not_idle {s : State} (h : (s.voice s.cur).st ≠ .idle) : schedule s = .next s := if_neg h

theorem schedule_of_idle {s : State} (h : (s.voice s.cur).st = .idle) :
    schedule s = consumeEvents ((s.voice s.cur).len.toNat - (s.voice s.cur).ptr.toNat) s := if_pos h

/-- With an event left, the event fetched runs and the voice schedules again: the event has taken one from the number left. -/
theorem schedule_of_event_left {s : State} (hst : (s.voice s.cur).st = .idle) (hlt : (s.voice s.cur).ptr.toNat < (s.voice s.cur).len.toNat) :
    schedule s =
      match s.melFetch s.cur (eventIndex (s.voice s.cur).ptr) with
      | none => .refused .unwrittenEvent
      | some w => andThen (exec (decode (.event w)) s) schedule := by
  obtain ⟨n, hn⟩ : ∃ n, (s.voice s.cur).len.toNat - (s.voice s.cur).ptr.toNat = n + 1 := ⟨_, (Nat.succ_pred_eq_of_pos (by omega)).symm⟩
  rw [schedule_of_idle hst, hn, consumeEvents, fetchEvent]
  cases s.melFetch s.cur (eventIndex (s.voice s.cur).ptr) with
  | none => rfl
  | some w =>
    have hnote := exec_note (w.extractLsb' 0 64) (w.extractLsb' 64 32) s
    obtain ⟨hptr, hlen⟩ := eventRegs_ptr_len (s.voice s.cur) (s.lookup (w.extractLsb' 0 64)) (w.extractLsb' 64 32)
    simp only [Option.map_some, decode, hnote, andThen_next, State.setVoice_cur, State.setVoice_voice_same]
    split
    · next hidle =>
      rw [schedule_of_idle (by simpa using hidle), State.setVoice_cur, State.setVoice_voice_same, hptr, hlen, ptr_succ_toNat hlt]
      congr 1
      omega
    · next hbusy => rw [schedule_of_not_idle (by simpa using hbusy)]

/-- Settles O9: the three branches of the loop, an event left being the one that goes on. -/
theorem scheduleRunsDecodedEvents : Obligations.ScheduleRunsDecodedEvents := by
  unfold Obligations.ScheduleRunsDecodedEvents
  refine ⟨fun s v i => ?fetch, fun s => ?loop⟩
  case fetch =>
    refine if_congr ?_ rfl rfl
    rw [State.eventWritten, Bool.and_eq_true, Bool.and_eq_true, and_assoc]
  case loop =>
    split
    · next hst =>
      split
      · next hend =>
        rw [schedule_of_idle hst, Nat.sub_eq_zero_of_le hend]
        rfl
      · next hleft => exact schedule_of_event_left hst (Nat.lt_of_not_le hleft)
    · next hst => exact schedule_of_not_idle hst

/-- Settles O10: the second half of `voiceTick` on the state that its first half has answered. -/
theorem voiceTickRunsDecodedOperation : Obligations.VoiceTickRunsDecodedOperation := by
  unfold Obligations.VoiceTickRunsDecodedOperation
  intro s s1 h
  rw [voiceTick, h]
  rfl

/-! ## The order of the turns (`44_scheduler.md` R140) -/

/-- Two states that are as a third outside the voices are one state if they agree on the voices, the ports and the turn. -/
theorem SameOutsideVoices.eq_of_voices {s t u : State} (ht : SameOutsideVoices s t) (hu : SameOutsideVoices s u)
    (hvoice : ∀ v, t.voice v = u.voice v) (hport : ∀ v, t.port v = u.port v) (hcur : t.cur = u.cur) : t = u := by
  have hvoices : t.voices = u.voices := State.voices_ext u t hvoice
  have hports : t.ports = u.ports := Vector.ext fun i hi => hport ⟨i, hi⟩
  rw [State.mk.injEq]
  exact ⟨ht.run.trans hu.run.symm, ht.cfgerr.trans hu.cfgerr.symm, hvoices, ht.mel.trans hu.mel.symm, hports,
    ht.readData.trans hu.readData.symm, ht.ft.trans hu.ft.symm, ht.pending.trans hu.pending.symm, hcur⟩

/-- Settles O11: in any order the turns give every voice its own `VoiceTick`, or some voice's fetch refuses the run. -/
theorem voiceOrderDoesNotMatter : Obligations.VoiceOrderDoesNotMatter := by
  unfold Obligations.VoiceOrderDoesNotMatter
  intro vs s hperm hrun
  have hmem : ∀ v, v ∈ vs := fun v => hperm.mem_iff.mpr (mem_allVoices v)
  rcases runVoices_spec vs (hperm.nodup_iff.mpr (by decide)) s with ⟨t, ht, hsame, hnext⟩ | ⟨hrefused, v, -, hnone⟩
  · simp only [hmem, if_true] at hnext
    rcases tick_spec s hrun with ⟨u, hu, hsame', hcur, hnext'⟩ | ⟨-, v, hnone⟩
    · have hvoice : ∀ v, t.voice v = u.voice v ∧ t.port v = u.port v := fun v =>
        Prod.mk.inj (Option.some.inj ((hnext v).symm.trans (hnext' v)))
      have hturn : SameOutsideVoices s (t.setCur s.cur) := hsame.trans ⟨rfl, rfl, rfl, rfl, rfl, rfl⟩
      rw [ht, hu, andThen_next, hturn.eq_of_voices hsame' (fun v => (hvoice v).1) (fun v => (hvoice v).2) hcur.symm]
    · exact nomatch hnone.symm.trans (hnext v)
  · rcases tick_spec s hrun with ⟨u, -, -, -, hnext'⟩ | ⟨hrefused', -⟩
    · exact nomatch hnone.symm.trans (hnext' v)
    · rw [hrefused, hrefused']
      rfl

end Sys2Proof.Machine

/-! SUPPORT. A voice through ticks: before `START`, Finished, the transitions of `ST`, skipped events, and how long a note and a melody last. -/

namespace Sys2Proof.Machine

/-! ## Before `START` (`44_scheduler.md` R143) -/

/-- Settles O44: a tick with `RUN = 0` is a silence. -/
theorem tickBeforeStartChangesNothing : Obligations.TickBeforeStartChangesNothing := by
  unfold Obligations.TickBeforeStartChangesNothing
  intro s hrun
  exact ⟨s.silence, tick_idle s hrun, s.silence_port, ⟨rfl, rfl⟩, fun _ => rfl, rfl, rfl, rfl, rfl, rfl⟩

/-! ## The sample word (`44_scheduler.md` R150) -/

/-- Settles O42: the product's magnitude is below `2^43`. -/
theorem sampleWordIsExact : Obligations.SampleWordIsExact := by
  unfold Obligations.SampleWordIsExact
  intro w a g hlo hhi ha hg
  exact ⟨sampleWord_toInt w a g hlo hhi ha hg, abs_sample_le w a g hlo hhi ha⟩

/-! ## A Finished voice (`44_scheduler.md` R144) -/

theorem voiceNext_of_finished {ev : EventIndex → Option (BitVec 96)} {ft : Key → FtAnswer} {r : VoiceRegs} (h : r.st = .finished) :
    voiceNext ev ft r = some (r, .silent) := by
  simp [voiceNext, regsSchedule, emitNext, h]

/-- The `VoiceTick` of a Finished voice silences its port. -/
theorem voiceTick_of_finished {s : State} (h : (s.voice s.cur).st = .finished) : voiceTick s = .next (s.setPort s.cur .silent) := by
  rw [voiceTick_eq, voiceNext_of_finished h, orRefuse, State.setVoice_self]

/-- A tick leaves a Finished voice as it was and its port silent. -/
theorem voice_of_finished {s t : State} {v : Voice} (hst : (s.voice v).st = .finished)
    (hnext : voiceNext (s.melFetch v) s.lookup (s.voice v) = some (t.voice v, t.port v)) :
    t.voice v = s.voice v ∧ t.port v = .silent := by
  rw [voiceNext_of_finished hst] at hnext
  exact Prod.mk.inj (Option.some.inj hnext.symm)

/-- Settles O45: a Finished voice fetches nothing, so five of them cannot be refused their tick. -/
theorem finishedIsTerminal : Obligations.FinishedIsTerminal := by
  unfold Obligations.FinishedIsTerminal
  refine ⟨fun s hst => ?turn, fun s t v hrun hst ht => voice_of_finished hst (voiceNext_of_tick hrun ht v), fun s hall => ?allFive⟩
  case turn =>
    exact ⟨_, voiceTick_of_finished hst, ⟨rfl, rfl⟩, fun _ => rfl, rfl, rfl, ⟨rfl, rfl, rfl⟩, s.setPort_port_same _ _,
      fun v hv => s.setPort_port_other _ v _ hv⟩
  case allFive =>
    have hfin := (allDone_iff s).mp hall
    cases hrun : s.run with
    | false => exact ⟨_, tick_idle s hrun, ⟨rfl, rfl⟩, fun _ => rfl, rfl, rfl, ⟨rfl, rfl, rfl⟩, s.silence_port⟩
    | true =>
      rcases tick_spec s hrun with ⟨t, ht, hsame, hcur, hnext⟩ | ⟨-, v, hnone⟩
      · have hvoice := fun v => voice_of_finished (hfin v) (hnext v)
        exact ⟨t, ht, ⟨hsame.run, hsame.cfgerr⟩, fun v => (hvoice v).1, hsame.mel, hsame.readData, ⟨hsame.ft, hsame.pending, hcur⟩,
          fun v => (hvoice v).2⟩
      · exact nomatch (voiceNext_of_finished (hfin v)).symm.trans hnone

/-! ## The transitions of `ST` (`44_scheduler.md` R142) -/

theorem regsSample_st (r : VoiceRegs) : (regsSample r).st = if r.gate = 1 then .idle else r.st := by rw [regsSample_eq]

/-- The shortest note has more than one sample, in fact 44 (`44_scheduler.md` R147). -/
theorem one_lt_gateLength {d : Word} (h : d ≠ 0) : 1 < gateLength d := by
  have hpos : d.toNat ≠ 0 := fun h0 => h (BitVec.eq_of_toNat_eq h0)
  have hfloor := (gateLength_floor d).2
  omega

section Schedule

variable {ev : EventIndex → Option (BitVec 96)} {ft : Key → FtAnswer} {r q : VoiceRegs}

theorem Scheduled.eq_of_busy (h : Scheduled ev ft r q) (hst : r.st ≠ .idle) : q = r := by
  cases h with
  | busy => rfl
  | finish _ hidle => exact absurd hidle hst
  | event _ _ _ hidle => exact absurd hidle hst

/-- An Idle voice that has scheduled and plays is at the start of a note. -/
theorem Scheduled.one_lt_gate (h : Scheduled ev ft r q) (hidle : r.st = .idle) (hplays : q.st = .playing) : 1 < q.gate.toNat := by
  induction h with
  | busy r hst => exact absurd hidle hst
  | finish r hst hend => cases hplays
  | event r q w hst hlt hw rest ih =>
    rcases eventRegs_cases r (ft (w.extractLsb' 0 64)) (w.extractLsb' 64 32) with ⟨fcw, -, hd, hstart⟩ | ⟨-, hskip⟩
    · rw [hstart] at rest
      rw [rest.eq_of_busy nofun]
      exact (one_lt_gateLength hd).trans_eq (gateLength_toNat _).symm
    · exact ih (hskip ▸ hst) hplays

end Schedule

/-- Settles O46, by the state of the voice before the tick. -/
theorem schedulerTransitions : Obligations.SchedulerTransitions := by
  unfold Obligations.SchedulerTransitions
  intro s t v _ hrun ht
  have hnext := voiceNext_of_tick hrun ht v
  have hplayed : (s.voice v).st = .playing → (t.voice v).st = if (s.voice v).gate = 1 then .idle else (s.voice v).st := fun hst => by
    rw [(voiceNext_of_playing hnext hst).1, regsSample_st]
  refine ⟨fun hst => ?finished, fun hst hgate => ?stays, fun hst hgate => ?ends, fun hst => ?idle⟩
  case finished => rw [(voice_of_finished hst hnext).1, hst]
  case stays => rw [hplayed hst, if_neg hgate, hst]
  case ends => rw [hplayed hst, if_pos hgate]
  case idle =>
    obtain ⟨q, hq, hemit⟩ := voiceNext_scheduled hnext
    rcases emitNext_regs_cases hemit with ⟨hplays, heq, -⟩ | ⟨hstill, heq, -⟩
    · have hgate := hq.one_lt_gate hst hplays
      rw [heq, regsSample_st, if_neg (by rw [gate_eq_one_iff]; omega)]
      exact .inl hplays
    · rw [heq]
      exact .inr (SchedState.eq_finished hq.not_idle hstill)

/-! ## Skipped events, and the event after them (`44_scheduler.md` R145, R146) -/

/-- A skipped event, as the scheduler sees it when it fetches it. -/
theorem Skipped.of_fetch {s : State} {v : Voice} {i : Nat} {w : BitVec 96} (h : Skipped s v i)
    (hw : s.melFetch v (BitVec.ofNat 10 i) = some w) : s.lookup (w.extractLsb' 0 64) = .miss ∨ w.extractLsb' 64 32 = 0 := by
  obtain ⟨-, hkey, hdur⟩ := s.melFetch_eq_some v _ w hw
  rw [hkey, hdur]
  exact h

/-- The pointer as far as `LEN` does not wrap. -/
theorem ptr_add_toNat {r : VoiceRegs} {j : Nat} (h : r.ptr.toNat + j ≤ r.len.toNat) :
    (r.ptr + BitVec.ofNat 11 j).toNat = r.ptr.toNat + j := by
  have := r.len.isLt
  rw [BitVec.toNat_add, BitVec.toNat_ofNat]
  omega

section Events

variable {s : State} {v : Voice} {r q : VoiceRegs}

/-- An Idle voice with an event left has executed it and gone on. -/
theorem Scheduled.event_inv (h : Scheduled (s.melFetch v) s.lookup r q) (hst : r.st = .idle) (hlt : r.ptr.toNat < r.len.toNat) :
    ∃ w, s.melFetch v (BitVec.ofNat 10 r.ptr.toNat) = some w ∧
      Scheduled (s.melFetch v) s.lookup (eventRegs r (s.lookup (w.extractLsb' 0 64)) (w.extractLsb' 64 32)) q := by
  cases h with
  | busy _ hbusy => exact absurd hst hbusy
  | finish _ _ hend => exact absurd hend (Nat.not_le_of_lt hlt)
  | event _ _ w _ _ hw rest => exact ⟨w, eventIndex_eq _ ▸ hw, rest⟩

/-- An Idle voice with no event left is Finished. -/
theorem Scheduled.end_inv (h : Scheduled (s.melFetch v) s.lookup r q) (hst : r.st = .idle) (hend : r.len.toNat ≤ r.ptr.toNat) :
    q = { r with st := .finished } := by
  cases h with
  | busy _ hbusy => exact absurd hst hbusy
  | finish => rfl
  | event _ _ _ _ hlt => exact absurd hend (Nat.not_le_of_lt hlt)

/-- An Idle voice whose next `j` events are skipped schedules as one whose pointer stands `j` events on. -/
theorem Scheduled.after_skipped {j : Nat} (h : Scheduled (s.melFetch v) s.lookup r q) (hst : r.st = .idle)
    (hj : r.ptr.toNat + j ≤ r.len.toNat) (hskip : ∀ m < j, Skipped s v (r.ptr.toNat + m)) :
    Scheduled (s.melFetch v) s.lookup { r with ptr := r.ptr + BitVec.ofNat 11 j } q := by
  induction j with
  | zero => simpa using h
  | succ j ih =>
    have hptr := ptr_add_toNat (Nat.le_of_succ_le hj)
    obtain ⟨w, hw, rest⟩ := (ih (Nat.le_of_succ_le hj) fun m hm => hskip m (hm.trans j.lt_succ_self)).event_inv hst (hptr.trans_lt hj)
    rw [hptr] at hw
    rw [eventRegs_of_skipped _ ((hskip j j.lt_succ_self).of_fetch hw)] at rest
    rwa [BitVec.ofNat_add, ← BitVec.add_assoc]

/-- An Idle voice that plays the event after `j` skipped ones starts that note, with its pointer past all of them. -/
theorem Scheduled.eq_noteStart {j : Nat} {fcw : Word} (h : Scheduled (s.melFetch v) s.lookup r q) (hst : r.st = .idle)
    (hj : r.ptr.toNat + j < r.len.toNat) (hskip : ∀ m < j, Skipped s v (r.ptr.toNat + m))
    (hkey : s.lookup (s.eventKey v (r.ptr.toNat + j)) = .hit fcw) (hdur : s.eventDur v (r.ptr.toNat + j) ≠ 0) :
    q = noteStart { r with ptr := r.ptr + BitVec.ofNat 11 (j + 1) } fcw (gateLength (s.eventDur v (r.ptr.toNat + j))) := by
  have hptr := ptr_add_toNat hj.le
  obtain ⟨w, hw, rest⟩ := (h.after_skipped hst hj.le hskip).event_inv hst (hptr.trans_lt hj)
  rw [hptr] at hw
  obtain ⟨-, hwkey, hwdur⟩ := s.melFetch_eq_some v _ w hw
  rw [hwkey.trans (rfl : _ = s.eventKey v (r.ptr.toNat + j)), hwdur.trans (rfl : _ = s.eventDur v (r.ptr.toNat + j)), hkey,
    eventRegs_of_plays _ fcw hdur] at rest
  rw [BitVec.ofNat_add, ← BitVec.add_assoc]
  exact rest.eq_of_busy nofun

/-- An Idle voice all of whose events are skipped is Finished with its pointer at `LEN`. -/
theorem Scheduled.eq_finished (h : Scheduled (s.melFetch v) s.lookup r q) (hst : r.st = .idle) (hle : r.ptr.toNat ≤ r.len.toNat)
    (hskip : ∀ m, r.ptr.toNat ≤ m → m < r.len.toNat → Skipped s v m) : q = { r with ptr := r.len, st := .finished } := by
  have hall : r.ptr.toNat + (r.len.toNat - r.ptr.toNat) = r.len.toNat := Nat.add_sub_cancel' hle
  have hptr : r.ptr + BitVec.ofNat 11 (r.len.toNat - r.ptr.toNat) = r.len :=
    BitVec.eq_of_toNat_eq ((ptr_add_toNat hall.le).trans hall)
  have hend := h.after_skipped hst hall.le fun m hm => hskip _ (Nat.le_add_right ..) (by omega)
  rw [hptr] at hend
  exact hend.end_inv hst le_rfl

end Events

/-- The first sample of a note is 0 and not the last (`44_scheduler.md` R152, R155). -/
theorem regsPort_noteStart (r : VoiceRegs) (fcw : Word) {d : Word} (h : d ≠ 0) :
    regsPort (noteStart r fcw (gateLength d)) = { valid := true, data := 0, first := true, last := false } := by
  have hgate : (noteStart r fcw (gateLength d)).gate.toNat = gateLength d := gateLength_toNat d
  have hlong := one_lt_gateLength h
  have hstart : NoteAt (noteStart r fcw (gateLength d)) 0 (noteStart r fcw (gateLength d)) := .start rfl rfl rfl rfl rfl
  rw [hstart.port, hgate, decide_eq_false (by omega : ¬ 0 + 1 = gateLength d)]
  simp

/-- Settles O48: the skipped events bring the pointer to the event that plays, and its note's first sample ends the tick. -/
theorem skippedEventsCostNoTick : Obligations.SkippedEventsCostNoTick := by
  unfold Obligations.SkippedEventsCostNoTick
  intro s v j fcw _ hload hrun hst hlt hskip hkey hdur
  obtain ⟨t, ht, -, -, hnext⟩ := tick_of_loaded hload hrun
  obtain ⟨q, hq, hemit⟩ := voiceNext_scheduled (hnext v)
  have hstart := hq.eq_noteStart hst hlt hskip hkey hdur
  have hgate : q.gate.toNat = gateLength (s.eventDur v ((s.voice v).ptr.toNat + j)) := by rw [hstart]; exact gateLength_toNat _
  have hlong := one_lt_gateLength hdur
  rcases emitNext_regs_cases hemit with ⟨hplays, hvoice, hport⟩ | ⟨hstill, -, -⟩
  · refine ⟨t, ht, ?ptr, ?st, ?fcw, ?notes, ?gate, ?port⟩
    case ptr =>
      rw [hvoice, regsSample_ptr, hstart]
      exact ptr_add_toNat hlt
    case st => rw [hvoice, regsSample_st, if_neg (by rw [gate_eq_one_iff]; omega), hplays]
    case fcw => rw [hvoice, regsSample_eq, hstart]; rfl
    case notes => rw [hvoice, regsSample_eq, hstart]; rfl
    case gate =>
      rw [hvoice, regsSample_gate, gate_pred_toNat (by omega), hgate, Nat.sub_add_cancel hlong.le]
      rfl
    case port => rw [hport, hstart, regsPort_noteStart _ fcw hdur]
  · exact absurd (hstart ▸ rfl) hstill

/-- Settles O49: the skipped events bring the pointer to `LEN`, where the voice is Finished and its port silent. -/
theorem exhaustedMelodyFinishes : Obligations.ExhaustedMelodyFinishes := by
  unfold Obligations.ExhaustedMelodyFinishes
  intro s v hinv hload hrun hst hskip
  obtain ⟨t, ht, -, -, hnext⟩ := tick_of_loaded hload hrun
  obtain ⟨q, hq, hemit⟩ := voiceNext_scheduled (hnext v)
  obtain ⟨-, -, -, -, hle, -⟩ := hinv v
  rw [hq.eq_finished hst hle hskip] at hemit
  rcases emitNext_regs_cases hemit with ⟨hplays, -, -⟩ | ⟨-, hvoice, hport⟩
  · cases hplays
  · exact ⟨t, ht, by rw [hvoice], by rw [hvoice], by rw [hvoice], hport⟩

/-! ## The length of a note (`44_scheduler.md` R147, R151, R152) -/

/-- The registers of a note that has `k` samples behind it, and not more than its gate (`44_scheduler.md` R151). -/
structure NoteRuns (r : VoiceRegs) (k : Nat) (q : VoiceRegs) : Prop where
  gate : q.gate.toNat = r.gate.toNat - k
  st : q.st = if k = r.gate.toNat then .idle else .playing
  ptr : q.ptr = r.ptr
  notes : q.notes = r.notes

theorem NoteRuns.start {r : VoiceRegs} (hst : r.st = .playing) (hgate : 0 < r.gate.toNat) : NoteRuns r 0 r :=
  ⟨rfl, by rw [if_neg hgate.ne, hst], rfl, rfl⟩

theorem NoteRuns.playing {r q : VoiceRegs} {k : Nat} (h : NoteRuns r k q) (hk : k < r.gate.toNat) : q.st = .playing := by
  rw [h.st, if_neg hk.ne]

theorem NoteRuns.gate_eq_one_iff {r q : VoiceRegs} {k : Nat} (h : NoteRuns r k q) (hk : k < r.gate.toNat) :
    q.gate = 1 ↔ k + 1 = r.gate.toNat := by
  rw [Machine.gate_eq_one_iff, h.gate]
  omega

theorem NoteRuns.next {r q : VoiceRegs} {k : Nat} (h : NoteRuns r k q) (hk : k < r.gate.toNat) : NoteRuns r (k + 1) (regsSample q) where
  gate := by rw [regsSample_gate, gate_pred_toNat (by rw [h.gate]; omega), h.gate, Nat.sub_sub]
  st := by rw [regsSample_st, if_congr (h.gate_eq_one_iff hk) rfl rfl, h.playing hk]
  ptr := (regsSample_ptr q).trans h.ptr
  notes := by rw [regsSample_eq]; exact h.notes

/-- A tick of a loaded machine takes one sample of a Playing voice. -/
theorem tick_of_playing {s : State} {v : Voice} (hload : Loaded s) (hrun : s.run = true) (hst : (s.voice v).st = .playing) :
    ∃ t, tick s = .next t ∧ Loaded t ∧ t.run = true ∧ t.voice v = regsSample (s.voice v) ∧ t.port v = regsPort (s.voice v) := by
  obtain ⟨t, ht, hload', hsame, hnext⟩ := tick_of_loaded hload hrun
  obtain ⟨hvoice, hport⟩ := voiceNext_of_playing (hnext v) hst
  exact ⟨t, ht, hload', hsame.run.trans hrun, hvoice, hport⟩

/-- While the gate is open each tick is one sample of the note. -/
theorem ticks_of_playing {s : State} {v : Voice} {n : Nat} (hload : Loaded s) (hrun : s.run = true) (hst : (s.voice v).st = .playing)
    (hn : n < (s.voice v).gate.toNat) : ∃ t, ticks n s = .next t ∧ Loaded t ∧ t.run = true ∧ NoteRuns (s.voice v) n (t.voice v) := by
  induction n with
  | zero => exact ⟨s, rfl, hload, hrun, .start hst hn⟩
  | succ n ih =>
    have hn' := Nat.lt_of_succ_lt hn
    obtain ⟨t, ht, hload', hrun', hnote⟩ := ih hn'
    obtain ⟨u, hu, hload'', hrun'', hvoice, -⟩ := tick_of_playing hload' hrun' (hnote.playing hn')
    exact ⟨u, ticks_succ ht hu, hload'', hrun'', hvoice ▸ hnote.next hn'⟩

/-- Settles O50: after `n` ticks `n` samples are behind the voice, and the next tick takes the next one, the last if the gate is then 1. -/
theorem noteLastsItsGate : Obligations.NoteLastsItsGate := by
  unfold Obligations.NoteLastsItsGate
  intro s v n hload hrun hst hn
  obtain ⟨t, ht, hload', hrun', hnote⟩ := ticks_of_playing hload hrun hst hn
  obtain ⟨u, hu, -, -, hvoice, hport⟩ := tick_of_playing hload' hrun' (hnote.playing hn)
  have hafter : NoteRuns (s.voice v) (n + 1) (u.voice v) := hvoice ▸ hnote.next hn
  refine ⟨u, ticks_succ ht hu, ?valid, ?last, hafter.gate, hafter.st, hafter.ptr, hafter.notes⟩
  case valid => rw [hport, regsPort_eq]
  case last =>
    rw [hport, regsPort_eq, Bool.eq_iff_iff, decide_eq_true_iff, ← hnote.gate_eq_one_iff hn]
    exact beq_iff_eq

/-! ## The length of a melody (`44_scheduler.md` R153, R154) -/

/-- A voice emits in a tick unless the tick finds nothing left for it to play. -/
theorem voiceNext_valid {ev : EventIndex → Option (BitVec 96)} {ft : Key → FtAnswer} {r r' : VoiceRegs} {p : SamplePort}
    (h : voiceNext ev ft r = some (r', p)) : p.valid = true ↔ r'.st ≠ .finished := by
  obtain ⟨q, hq, hemit⟩ := voiceNext_scheduled h
  rcases emitNext_regs_cases hemit with ⟨hst, rfl, rfl⟩ | ⟨hst, rfl, rfl⟩
  · exact iff_of_true rfl (regsSample_not_finished hst)
  · exact iff_of_false nofun fun hfin => hfin (SchedState.eq_finished hq.not_idle hst)

/-- Settles O52: a voice is Finished after `n + 1` ticks exactly if it had at most `n` samples due, and else the last of these ticks emitted one. -/
theorem melodyTotalLength : Obligations.MelodyTotalLength := by
  unfold Obligations.MelodyTotalLength
  intro s v n hinv hload hrun hst
  have hstart : TickedFrom s 0 s := ⟨hinv, hload, hrun, .refl s, fun _ => rfl⟩
  have hstep : ∀ n t, TickedFrom s n t → ∃ u, tick t = .next u ∧ TickedFrom s (n + 1) u ∧
      ((u.port v).valid = true ↔ (u.voice v).st ≠ .finished) ∧ ((u.voice v).st = .finished ↔ s.samplesLeft v ≤ n) := by
    intro n t h
    obtain ⟨u, hu, hnext, hfin⟩ := h.next_tick
    exact ⟨u, hu, hnext, voiceNext_valid (voiceNext_of_tick h.run hu v), samplesDue_of_idle hinv hst ▸ hfin v⟩
  obtain ⟨t, u, hu, -, hvalid, hfin⟩ := ticks_induct hstart hstep n
  refine ⟨u, hu, ?_, hfin⟩
  rw [Bool.eq_iff_iff, hvalid, ne_eq, hfin, decide_eq_true_iff, not_le]

end Sys2Proof.Machine

/-! SUPPORT. The host operations (`45_host.md`): the answer of every dropped and every accepted write, the word of every address, and the statements
that follow from these. -/

namespace Sys2Proof.Machine

/-! ## Dropped writes (`45_host.md` R172, R173, R176, R177) -/

/-- The register value of a legal `VCFG` word: `KIND` and `METAL` as the data has them (`30_encoding.md` R81). -/
theorem exists_vcfgOfWord {d : Word} (h : d.extractLsb' 0 2 ≠ 3) :
    ∃ k, kindBits k = d.extractLsb' 0 2 ∧ vcfgOfWord d = some { kind := k, metal := d.getLsbD 2 } := by
  rw [kind_eq_bits] at h ⊢
  unfold vcfgOfWord
  revert h
  cases d.getLsbD 1 <;> cases d.getLsbD 0
  · exact fun _ => ⟨.pulse, rfl, rfl⟩
  · exact fun _ => ⟨.triangle, rfl, rfl⟩
  · exact fun _ => ⟨.noise, rfl, rfl⟩
  · exact fun h => absurd rfl h

/-- A legal `VCFG` word is written as the register value it stands for, if the phase lock lets it (`45_host.md` R172, R174). -/
theorem exec_wrVcfg_of_legal (s : State) (v : Voice) {d : Word} {c : Vcfg} (h : vcfgOfWord d = some c) :
    exec (.wrVcfg v d) s = .next (configWrite s true (s.setVoice v { s.voice v with vcfg := c })) := by
  show execWrVcfg v d s = _
  rw [execWrVcfg, h]

/-- Every instruction that R177 lists answers the one shared error effect. -/
theorem exec_of_dropsWrite {i : Instr} {s : State} (h : dropsWrite s i = true) : exec i s = .next (dropWrite s) := by
  cases i with
  | note | pulse | triangle | noise | noiseM | ctrlNop | rd => cases h
  | vcfgRsvd | wrBad => rfl
  | start => exact congrArg _ (if_pos h)
  | wrVcfg v d =>
    by_cases hkind : d.extractLsb' 0 2 = 3
    · exact exec_wrVcfg_of_reserved s v hkind
    · obtain ⟨k, -, hc⟩ := exists_vcfgOfWord hkind
      have hcause : s.run = true ∨ d.extractLsb' 0 2 = 3 := by simpa [dropsWrite] using h
      rw [exec_wrVcfg_of_legal s v hc, configWrite_drop _ _ _ (.inl (hcause.resolve_right hkind))]
  | wrDuty v d | wrSeed v d | wrLen v d => exact congrArg _ (configWrite_drop _ _ _ (by simpa [dropsWrite] using h))
  | wrKeyLo | wrKeyHi | wrDur => exact congrArg _ (configWrite_drop _ _ _ (.inl h))

theorem isDropped_of_dropsWrite {i : Instr} {s : State} (h : dropsWrite s i = true) : IsDropped i s :=
  ⟨dropWrite s, exec_of_dropsWrite h, onlySetsCfgerr_dropWrite s⟩

/-- Settles O21: `RUN` is one of the two causes for which `dropsWrite` names each of the seven writes. -/
theorem phaseLockDropsWrites : Obligations.PhaseLockDropsWrites := by
  unfold Obligations.PhaseLockDropsWrites
  intro s v k d hrun
  have hlock : ∀ illegal : Bool, (s.run || illegal) = true := fun _ => by rw [hrun, Bool.true_or]
  exact ⟨isDropped_of_dropsWrite (hlock _), isDropped_of_dropsWrite (hlock _), isDropped_of_dropsWrite (hlock _),
    isDropped_of_dropsWrite (hlock _), isDropped_of_dropsWrite hrun, isDropped_of_dropsWrite hrun, isDropped_of_dropsWrite hrun⟩

/-- Settles O22: the illegal value is the other cause, whatever `RUN` is. -/
theorem valueFilterDropsWrites : Obligations.ValueFilterDropsWrites := by
  unfold Obligations.ValueFilterDropsWrites
  intro s v d
  have hfilter : ∀ illegal : Bool, illegal = true → (s.run || illegal) = true := fun _ h => by rw [h, Bool.or_true]
  exact ⟨fun h => isDropped_of_dropsWrite (hfilter _ (beq_iff_eq.mpr h)), fun h => isDropped_of_dropsWrite (hfilter _ (beq_iff_eq.mpr h)),
    fun h => isDropped_of_dropsWrite (hfilter _ (beq_iff_eq.mpr h)), fun h => isDropped_of_dropsWrite (hfilter _ (decide_eq_true h))⟩

/-- Settles O23: `WR.BAD` is always dropped, and its row takes every address that no earlier row takes. -/
theorem badWriteOnlySetsCfgerr : Obligations.BadWriteOnlySetsCfgerr := by
  unfold Obligations.BadWriteOnlySetsCfgerr
  intro s a d
  refine ⟨isDropped_of_dropsWrite rfl, fun hctrl hreg hmel => ?_⟩
  rw [(WriteRow.bad a d ⟨hctrl, hreg, hmel⟩).decode_eq]
  exact isDropped_of_dropsWrite rfl

/-! ## Accepted writes (`45_host.md` R170, R174, R175) -/

section Accepted

variable {s : State} (hrun : s.run = false)
include hrun

theorem exec_start_accepted : exec .start s = .next (s.setRun true) :=
  congrArg _ (if_neg (ne_true_of_eq_false hrun))

theorem exec_wrVcfg_accepted (v : Voice) {d : Word} {c : Vcfg} (h : vcfgOfWord d = some c) :
    exec (.wrVcfg v d) s = .next (s.setVoice v { s.voice v with vcfg := c }) := by
  rw [exec_wrVcfg_of_legal s v h, configWrite_accept _ _ _ hrun rfl]

theorem exec_wrDuty_accepted (v : Voice) {d : Word} (h : d ≠ 0) :
    exec (.wrDuty v d) s = .next (s.setVoice v { s.voice v with duty := d }) :=
  congrArg _ (configWrite_accept _ _ _ hrun (bne_iff_ne.mpr h))

theorem exec_wrSeed_accepted (v : Voice) {d : Word} (h : d ≠ 0) :
    exec (.wrSeed v d) s = .next (s.setVoice v { s.voice v with seed := d }) :=
  congrArg _ (configWrite_accept _ _ _ hrun (bne_iff_ne.mpr h))

theorem exec_wrLen_accepted (v : Voice) {d : Word} (h : d.toNat ≤ 1024) :
    exec (.wrLen v d) s = .next (s.setVoice v { s.voice v with len := d.setWidth 11 }) :=
  congrArg _ (configWrite_accept _ _ _ hrun (decide_eq_true h))

theorem exec_wrKeyLo_accepted (v : Voice) (k : EventIndex) (d : Word) :
    exec (.wrKeyLo v k d) s = .next (s.setWord (melAddr v k 0) d) :=
  congrArg _ (configWrite_accept _ _ _ hrun rfl)

theorem exec_wrKeyHi_accepted (v : Voice) (k : EventIndex) (d : Word) :
    exec (.wrKeyHi v k d) s = .next (s.setWord (melAddr v k 1) d) :=
  congrArg _ (configWrite_accept _ _ _ hrun rfl)

theorem exec_wrDur_accepted (v : Voice) (k : EventIndex) (d : Word) :
    exec (.wrDur v k d) s = .next (s.setWord (melAddr v k 2) d) :=
  congrArg _ (configWrite_accept _ _ _ hrun rfl)

end Accepted

/-- Settles O16: bit 0 selects the row; `START` is accepted with `RUN = 0` and dropped with `RUN = 1`. -/
theorem ctrlWriteStartsOrDoesNothing : Obligations.CtrlWriteStartsOrDoesNothing := by
  unfold Obligations.CtrlWriteStartsOrDoesNothing
  intro s d
  refine ⟨fun hbit => ⟨(WriteRow.start d hbit).decode_eq, fun hrun => ?accepted, isDropped_of_dropsWrite (i := .start)⟩,
    fun hbit => ⟨(WriteRow.ctrlNop d hbit).decode_eq, rfl⟩⟩
  case accepted =>
    exact ⟨_, exec_start_accepted hrun, rfl, rfl, fun _ => rfl, fun _ => ⟨rfl, rfl⟩, ⟨fun _ => rfl, rfl⟩, rfl, rfl, rfl⟩

/-- Settles O17: the register value of the data is written to one voice. -/
theorem vcfgWriteAccepted : Obligations.VcfgWriteAccepted := by
  unfold Obligations.VcfgWriteAccepted
  intro s v d hrun hkind
  obtain ⟨k, hk, hc⟩ := exists_vcfgOfWord hkind
  exact ⟨_, k, exec_wrVcfg_accepted hrun v hc, hk, s.setVoice_voice_same v _, onlyWritesVoice_setVoice ..⟩

/-- Settles O18: each write is one voice's register; 11 bits hold every legal `LEN`. -/
theorem parameterWritesAccepted : Obligations.ParameterWritesAccepted := by
  unfold Obligations.ParameterWritesAccepted
  refine ⟨fun s v d hrun hd => ?duty, fun s v d hrun hd => ?seed, fun s v d hrun hd => ?len⟩
  case duty => exact ⟨_, exec_wrDuty_accepted hrun v hd, s.setVoice_voice_same v _, onlyWritesVoice_setVoice ..⟩
  case seed => exact ⟨_, exec_wrSeed_accepted hrun v hd, s.setVoice_voice_same v _, onlyWritesVoice_setVoice ..⟩
  case len =>
    refine ⟨_, exec_wrLen_accepted hrun v hd, ?_, ?_, onlyWritesVoice_setVoice ..⟩
    · rw [State.setVoice_voice_same, BitVec.toNat_setWidth]
      exact Nat.mod_eq_of_lt (by omega)
    · rw [State.setVoice_voice_same]

/-! ## Melody writes (`45_host.md` R175) -/

/-- Storing a word is all that an accepted melody write does. -/
theorem storesMelodyWord_setWord (s : State) (v : Voice) (k : EventIndex) (n : Nat) (d : Word) :
    StoresMelodyWord s (s.setWord (melAddr v k n) d) v k n d :=
  ⟨s.setWord_word_same _ d, s.setWord_wordWritten_same _ d,
    fun a ha => ⟨s.setWord_byte_other _ a d ha, s.setWord_memRead_other _ a d ha⟩,
    ⟨rfl, rfl⟩, fun _ => rfl, ⟨fun _ => rfl, rfl⟩, rfl, rfl, rfl⟩

/-- Settles O19: each of the three writes stores its word. -/
theorem melodyWritesStore : Obligations.MelodyWritesStore := by
  unfold Obligations.MelodyWritesStore
  intro s v k d hrun
  exact ⟨⟨_, exec_wrKeyLo_accepted hrun v k d, storesMelodyWord_setWord ..⟩, ⟨_, exec_wrKeyHi_accepted hrun v k d, storesMelodyWord_setWord ..⟩,
    ⟨_, exec_wrDur_accepted hrun v k d, storesMelodyWord_setWord ..⟩⟩

/-- A melody write, dropped or accepted, leaves every word but its own: distinct words have distinct addresses (`20_memory.md` R61). -/
theorem keepsWord_of_configWrite {s t : State} {v u : Voice} {k j : EventIndex} {m n : Nat} {d : Word} (hm : m ≤ 2) (hn : n ≤ 2)
    (ht : configWrite s true (s.setWord (melAddr v k m) d) = t) (hne : (u, j, n) ≠ (v, k, m)) : KeepsWord s t (melAddr u j n) := by
  rcases configWrite_cases s (s.setWord (melAddr v k m) d) true with hdrop | ⟨-, -, hwrite⟩
  · rw [← ht, hdrop]
    exact ⟨rfl, rfl⟩
  · have haddr : melAddr u j n ≠ melAddr v k m := by
      intro h
      obtain ⟨rfl, rfl, rfl⟩ := melAddr_inj (by omega) (by omega) h
      exact hne rfl
    rw [← ht, hwrite]
    exact ⟨s.setWord_word_other _ _ d haddr, s.setWord_wordWritten_other _ _ d haddr⟩

/-- Settles O20: the three writes are one shared write at three words. -/
theorem melodyWritesLeaveOtherWords : Obligations.MelodyWritesLeaveOtherWords := by
  unfold Obligations.MelodyWritesLeaveOtherWords
  intro s t v u k j n d hn
  exact ⟨fun h => keepsWord_of_configWrite (by decide) hn (Host.Outcome.next.inj h),
    fun h => keepsWord_of_configWrite (by decide) hn (Host.Outcome.next.inj h),
    fun h => keepsWord_of_configWrite (by decide) hn (Host.Outcome.next.inj h)⟩

/-! ## The causes of `CFGERR` (`45_host.md` R177) -/

/-- An instruction outside R177's list leaves `CFGERR`. -/
theorem cfgerr_of_not_dropsWrite {i : Instr} {s t : State} (hd : dropsWrite s i = false) (h : exec i s = .next t) :
    t.cfgerr = s.cfgerr := by
  cases i with
  | note | pulse | triangle | noise | noiseM | ctrlNop | rd => cases h; rfl
  | vcfgRsvd | wrBad => cases hd
  | start => cases (exec_start_accepted hd).symm.trans h; rfl
  | wrVcfg v d =>
    obtain ⟨hrun, hkind⟩ : s.run = false ∧ d.extractLsb' 0 2 ≠ 3 := by simpa [dropsWrite] using hd
    obtain ⟨k, -, hc⟩ := exists_vcfgOfWord hkind
    cases (exec_wrVcfg_accepted hrun v hc).symm.trans h
    rfl
  | wrDuty v d =>
    obtain ⟨hrun, hlegal⟩ : s.run = false ∧ d ≠ 0 := by simpa [dropsWrite] using hd
    cases (exec_wrDuty_accepted hrun v hlegal).symm.trans h
    rfl
  | wrSeed v d =>
    obtain ⟨hrun, hlegal⟩ : s.run = false ∧ d ≠ 0 := by simpa [dropsWrite] using hd
    cases (exec_wrSeed_accepted hrun v hlegal).symm.trans h
    rfl
  | wrLen v d =>
    obtain ⟨hrun, hlegal⟩ : s.run = false ∧ d.toNat ≤ 1024 := by simpa [dropsWrite] using hd
    cases (exec_wrLen_accepted hrun v hlegal).symm.trans h
    rfl
  | wrKeyLo v k d => cases (exec_wrKeyLo_accepted hd v k d).symm.trans h; rfl
  | wrKeyHi v k d => cases (exec_wrKeyHi_accepted hd v k d).symm.trans h; rfl
  | wrDur v k d => cases (exec_wrDur_accepted hd v k d).symm.trans h; rfl

/-- Settles O25: an instruction is a dropped write or leaves the flag, and a tick drops nothing. -/
theorem cfgerrHasOnlyListedCauses : Obligations.CfgerrHasOnlyListedCauses := by
  unfold Obligations.CfgerrHasOnlyListedCauses
  refine ⟨fun i s t h => ?instr, fun s t h => ?tick⟩
  case instr =>
    cases hd : dropsWrite s i with
    | false => rw [cfgerr_of_not_dropsWrite hd h, Bool.or_false]
    | true =>
      cases (exec_of_dropsWrite hd).symm.trans h
      rw [dropWrite_cfgerr, Bool.or_true]
  case tick =>
    rcases tick_cases h with ⟨-, rfl⟩ | ⟨-, hsame, -⟩
    · rfl
    · exact hsame.cfgerr

/-! ## Reads (`45_host.md` R178) -/

theorem hostRead_ctrl (s : State) : hostRead s 0x0000 = BitVec.ofNat 32 s.run.toNat := by
  show (BitVec.ofBool s.run).setWidth 32 = _
  cases s.run <;> rfl

theorem hostRead_reg (s : State) {a : Addr} {v : Voice} {o : Nat} (ho : o ≤ 6) (h : a.toNat = regAddr v o) :
    hostRead s a = regWord (s.voice v) o := by
  rw [hostRead, placeOf_of_reg a v o ho h]

theorem hostRead_mel (s : State) {a : Addr} {v : Voice} {k : EventIndex} {n : Nat} (hn : n ≤ 2) (h : a.toNat = melAddr v k n) :
    hostRead s a = s.melWord v k n := by
  rw [hostRead, placeOf_of_mel a v k n hn h]

/-- The reserved word of an event and every unmapped address read as 0. -/
theorem hostRead_elsewhere (s : State) {a : Addr} (hpos : 1 < a.toNat) (hreg : ∀ v o, o ≤ 6 → a.toNat ≠ regAddr v o)
    (hmel : ∀ v k n, n ≤ 2 → a.toNat ≠ melAddr v k n) : hostRead s a = 0 := by
  rcases placeOf_cases a with ⟨rfl, -⟩ | ⟨rfl, -⟩ | ⟨v, o, ho, ha, -⟩ | ⟨v, k, n, hn, ha, -⟩ | hp
  · exact absurd hpos (by decide)
  · exact absurd hpos (by decide)
  · exact absurd ha (hreg v o ho)
  · exact absurd ha (hmel v k n hn)
  · rw [hostRead, hp]

/-- Settles O26: the read hands over `hostRead`, whose value at each kind of address is one of the lemmas above. -/
theorem readReturnsTable : Obligations.ReadReturnsTable := by
  unfold Obligations.ReadReturnsTable
  intro s a
  refine ⟨s.setReadData (hostRead s a), hostRead s a, rfl, rfl, ⟨rfl, rfl⟩, fun _ => rfl, fun _ => ⟨rfl, rfl⟩, fun _ => rfl, ⟨rfl, rfl, rfl⟩,
    ?ctrl, ?status, fun v h => ?vcfg, fun v h => hostRead_reg s (o := 1) (by decide) h, fun v h => hostRead_reg s (o := 2) (by decide) h,
    fun v h => ?len, fun v h => ?ptr, fun v h => hostRead_reg s (o := 5) (by decide) h, fun v h => hostRead_reg s (o := 6) (by decide) h,
    fun v k n hn h => hostRead_mel s hn h, hostRead_elsewhere s⟩
  case ctrl =>
    rintro rfl
    exact hostRead_ctrl s
  case status =>
    rintro rfl
    rfl
  case vcfg =>
    rw [hostRead_reg s (o := 0) (by decide) h]
    exact ⟨rfl, vcfgToWord_bits (s.voice v).vcfg⟩
  case len =>
    rw [hostRead_reg s (o := 3) (by decide) h]
    exact BitVec.toNat_setWidth_of_le (by decide)
  case ptr =>
    rw [hostRead_reg s (o := 4) (by decide) h]
    exact BitVec.toNat_setWidth_of_le (by decide)

/-! ## The step -/

/-- Settles O7: the step on a queued input is that input's operation on the rest of the queue. -/
theorem stepRunsHostOperation : Obligations.StepRunsHostOperation :=
  ⟨fun s w rest h => step_cons s (.write w) rest h, fun s a rest h => step_cons s (.read a) rest h⟩

end Sys2Proof.Machine

/-! SUPPORT. The two exceptional outcomes of `60_exceptions.md`: when a step is refused (O12), and that `all_done` holds until reset (O59). -/

namespace Sys2Proof.Machine

/-! ## The fetch of a never-written event (`60_exceptions.md` R204) -/

/-- A fetched event that the scheduler skips is a skipped event of the melody. -/
theorem skipped_of_melFetch {s : State} {v : Voice} {i : Nat} {w : BitVec 96} (hw : s.melFetch v (BitVec.ofNat 10 i) = some w)
    (h : s.lookup (w.extractLsb' 0 64) = .miss ∨ w.extractLsb' 64 32 = 0) : Skipped s v i := by
  obtain ⟨-, hkey, hdur⟩ := s.melFetch_eq_some v _ w hw
  rw [hkey, hdur] at h
  exact h

/-- What a voice fetches after a written, skipped event it fetches already with its pointer on that event. -/
theorem FetchesUnwritten.before_skipped {s : State} {v : Voice} {i : Nat} (hst : (s.voice v).st = .idle)
    (hlt : (s.voice v).ptr.toNat < (s.voice v).len.toNat) (hwritten : s.eventWritten v (BitVec.ofNat 10 (s.voice v).ptr.toNat) = true)
    (hskip : Skipped s v (s.voice v).ptr.toNat)
    (h : FetchesUnwritten (s.setVoice v { s.voice v with ptr := (s.voice v).ptr + 1 }) v i) : FetchesUnwritten s v i := by
  obtain ⟨-, hle, hi, hunwritten, hbefore⟩ := h
  rw [State.setVoice_voice_same] at hle hi hbefore
  rw [ptr_succ_toNat hlt] at hle hbefore
  refine ⟨hst, Nat.le_of_succ_le hle, hi, hunwritten, fun m hm hge => ?_⟩
  rcases hge.eq_or_lt with rfl | hgt
  · exact ⟨hwritten, hskip⟩
  · exact hbefore m hm hgt

/-- The loop of `Schedule` stops without a value only at a never-written event, past events that it skipped. -/
theorem fetchesUnwritten_of_regsConsume {n : Nat} {s : State} {v : Voice} (hst : (s.voice v).st = .idle)
    (hn : n ≤ (s.voice v).len.toNat - (s.voice v).ptr.toNat) (h : regsConsume (s.melFetch v) s.lookup n (s.voice v) = none) :
    ∃ i, FetchesUnwritten s v i := by
  induction n generalizing s with
  | zero => cases h
  | succ n ih =>
    have hlt : (s.voice v).ptr.toNat < (s.voice v).len.toNat := by omega
    rw [regsConsume, eventIndex_eq] at h
    cases hw : s.melFetch v (BitVec.ofNat 10 (s.voice v).ptr.toNat) with
    | none =>
      exact ⟨_, hst, le_rfl, hlt, (s.melFetch_eq_none v _).mp hw, fun m hm hge => absurd hm (Nat.not_lt_of_le hge)⟩
    | some w =>
      simp only [hw] at h
      split at h
      · next hidle =>
        have hskip := (eventRegs_idle_iff _ _ _ hst).mp hidle
        rw [eventRegs_of_skipped _ hskip] at h
        have hleft : n ≤ (s.voice v).len.toNat - ((s.voice v).ptr + 1).toNat := by rw [ptr_succ_toNat hlt]; omega
        have hvoice := s.setVoice_voice_same v { s.voice v with ptr := (s.voice v).ptr + 1 }
        obtain ⟨i, hi⟩ := ih (by rwa [hvoice]) (by rwa [hvoice]) (by rwa [hvoice])
        exact ⟨i, hi.before_skipped hst hlt (s.melFetch_eq_some v _ w hw).1 (skipped_of_melFetch hw hskip)⟩
      · cases h

/-- A voice's turn has no outcome exactly if it comes to a never-written event. -/
theorem voiceNext_eq_none_iff (s : State) (v : Voice) :
    voiceNext (s.melFetch v) s.lookup (s.voice v) = none ↔ ∃ i, FetchesUnwritten s v i := by
  constructor
  · intro h
    rw [voiceNext, Option.map_eq_none_iff, regsSchedule] at h
    split at h
    · next hst => exact fetchesUnwritten_of_regsConsume hst le_rfl h
    · cases h
  · rintro ⟨i, hst, hle, hlt, hunwritten, hbefore⟩
    by_contra hnext
    obtain ⟨x, hx⟩ := Option.ne_none_iff_exists'.mp hnext
    obtain ⟨q, hq, -⟩ := voiceNext_scheduled hx
    obtain ⟨j, rfl⟩ := Nat.exists_eq_add_of_le hle
    have hptr := ptr_add_toNat hlt.le
    obtain ⟨w, hw, -⟩ := (hq.after_skipped hst hlt.le fun m hm => (hbefore _ (by omega) (by omega)).2).event_inv hst (hptr.trans_lt hlt)
    rw [hptr, (s.melFetch_eq_none v _).mpr hunwritten] at hw
    cases hw

/-! ## The outcomes of a tick and of a step (`60_exceptions.md` R190, R204) -/

theorem tick_next_or_refused (s : State) : (∃ t, tick s = .next t) ∨ tick s = .refused .unwrittenEvent := by
  cases hrun : s.run with
  | false => exact .inl ⟨_, tick_idle s hrun⟩
  | true => exact (tick_spec s hrun).imp (fun ⟨t, ht, _⟩ => ⟨t, ht⟩) And.left

theorem tick_refused_iff (s : State) :
    tick s = .refused .unwrittenEvent ↔ s.run = true ∧ ∃ (v : Voice) (i : Nat), FetchesUnwritten s v i := by
  simp only [← voiceNext_eq_none_iff]
  cases hrun : s.run with
  | false => simp [tick_idle s hrun]
  | true =>
    rcases tick_spec s hrun with ⟨t, ht, -, -, hnext⟩ | ⟨hrefused, hnone⟩
    · simp [ht, hnext]
    · simp [hrefused, hnone]

/-- A step is a tick, if a tick or nothing is queued, and else completes: every instruction and the reset do. -/
theorem step_tick_or_next (s : State) :
    ((s.pending = [] ∨ ∃ rest, s.pending = .tick :: rest) ∧ ∃ q, step s = tick (s.setPending q)) ∨
      (¬(s.pending = [] ∨ ∃ rest, s.pending = .tick :: rest) ∧ ∃ t, step s = .next t) := by
  rcases hp : s.pending with _ | ⟨x, q⟩
  · exact .inl ⟨.inl rfl, s.pending, step_nil s hp⟩
  · rw [step_cons s x q hp]
    cases x with
    | tick => exact .inl ⟨.inr ⟨q, rfl⟩, q, rfl⟩
    | write w => exact .inr ⟨by simp, exec_next (decode (.hostWrite w)) _⟩
    | read a => exact .inr ⟨by simp, exec_next (decode (.hostRead a)) _⟩
    | reset => exact .inr ⟨by simp, _, rfl⟩

/-- Settles O12: only a tick can be refused, by a voice whose turn has no outcome, and a loaded machine has no such voice. -/
theorem stepRefusesOnlyUnwrittenFetch : Obligations.StepRefusesOnlyUnwrittenFetch := by
  unfold Obligations.StepRefusesOnlyUnwrittenFetch
  refine ⟨fun s => ?outcome, fun s => ?refused, fun s hload => ?loaded⟩
  case outcome =>
    rcases step_tick_or_next s with ⟨-, q, hstep⟩ | ⟨-, hnext⟩
    · rw [hstep]
      exact tick_next_or_refused _
    · exact .inl hnext
  case refused =>
    rcases step_tick_or_next s with ⟨htick, q, hstep⟩ | ⟨hother, t, ht⟩
    · rw [hstep, tick_refused_iff, and_iff_right htick]
      rfl
    · rw [ht]
      exact ⟨nofun, fun ⟨htick, _⟩ => absurd htick hother⟩
  case loaded =>
    cases hrun : s.run with
    | false => exact ⟨_, tick_idle s hrun, hload⟩
    | true =>
      obtain ⟨t, ht, hload', -⟩ := tick_of_loaded hload hrun
      exact ⟨t, ht, hload'⟩

/-! ## `all_done` (`60_exceptions.md` R193) -/

/-- A completed tick leaves a Finished voice Finished, whatever `RUN` is (`44_scheduler.md` R143, R144). -/
theorem finished_of_tick {s t : State} {v : Voice} (hst : (s.voice v).st = .finished) (h : tick s = .next t) :
    (t.voice v).st = .finished := by
  rcases tick_cases h with ⟨-, rfl⟩ | ⟨-, -, -, hnext⟩
  · exact hst
  · rw [(voice_of_finished hst (hnext v)).1, hst]

/-- A host operation leaves every voice's scheduler state (`45_host.md` R174). -/
theorem HostEffect.voice_st {s t : State} (h : HostEffect s t) (v : Voice) : (t.voice v).st = (s.voice v).st := by
  obtain ⟨⟨c, d, e, l, hvoice⟩, -⟩ := h.voice_eq v
  rw [hvoice]

/-- Settles O59: `all_done` is five Finished voices, and a voice leaves Finished by reset alone. -/
theorem allDoneHoldsUntilReset : Obligations.AllDoneHoldsUntilReset := by
  unfold Obligations.AllDoneHoldsUntilReset
  intro s t hdone hreset hstep
  rw [allDone_iff] at hdone ⊢
  intro v
  obtain ⟨q, htick | heff | ⟨hpending, -⟩⟩ := step_cases hstep
  · exact finished_of_tick (s := s.setPending q) (hdone v) htick
  · exact (heff.voice_st v).trans (hdone v)
  · exact absurd hpending (hreset q)

end Sys2Proof.Machine

/-! SUPPORT. Reset and hazards (`70_reset_and_hazards.md`): what every step keeps of the melody memory and the FrequencyTable (O56, O60), the reset
input (O14), and a read straight after an accepted write (O28). -/

namespace Sys2Proof.Machine

/-! ## What every step keeps (`20_memory.md`, `70_reset_and_hazards.md` R227) -/

/-- A completed tick, whatever `RUN` is, leaves all but the voices and their ports. -/
theorem tick_sameOutsideVoices {s t : State} (h : tick s = .next t) : SameOutsideVoices s t := by
  rcases tick_cases h with ⟨-, rfl⟩ | ⟨-, hsame, -, -⟩
  · exact ⟨rfl, rfl, rfl, rfl, rfl, rfl⟩
  · exact hsame

/-- Of the host operations only a melody write touches the memory, by a store, which keeps the canonical form. -/
theorem HostEffect.mel_wf {s t : State} (heff : HostEffect s t) (h : s.mel.wf = true) : t.mel.wf = true := by
  cases heff with
  | nothing | drop | start | vcfg | duty | seed | len | read => exact h
  | melody hrun a d => exact s.setWord_wf a d h

/-- No host operation touches the answers the environment pins. -/
theorem HostEffect.ft_eq {s t : State} (heff : HostEffect s t) : t.ft = s.ft := by
  cases heff <;> rfl

/-- Settles O56: a tick and a reset leave the memory as a list, and a host operation leaves it or stores a word. -/
theorem stepKeepsMemoryCanonical : Obligations.StepKeepsMemoryCanonical := by
  unfold Obligations.StepKeepsMemoryCanonical
  intro s t hwf hstep
  obtain ⟨q, htick | heff | ⟨-, rfl⟩⟩ := step_cases hstep
  · rw [(tick_sameOutsideVoices htick).mel]
    exact hwf
  · exact heff.mel_wf hwf
  · exact hwf

/-- No step touches the answers the environment pins: reset keeps the environment's data (log 12). -/
theorem step_ft {s t : State} (hstep : step s = .next t) : t.ft = s.ft := by
  obtain ⟨q, htick | heff | ⟨-, rfl⟩⟩ := step_cases hstep
  · exact (tick_sameOutsideVoices htick).ft
  · exact heff.ft_eq
  · rfl

/-- Settles O60: an answer is a function of the pinned answers alone. -/
theorem frequencyTableIsConstant : Obligations.FrequencyTableIsConstant := by
  unfold Obligations.FrequencyTableIsConstant
  intro s t key hstep
  rw [State.lookup, State.lookup, step_ft hstep]

/-! ## The reset input (`70_reset_and_hazards.md` R220, R221) -/

/-- After reset no voice emits (`10_state.md` R49). -/
theorem reset_port (v : Voice) : State.reset.port v = .silent := State.silence_port State.reset v

/-- Settles O14: the step is `State.applyReset` on the rest of the queue. -/
theorem resetInputForcesResetState : Obligations.ResetInputForcesResetState := by
  unfold Obligations.ResetInputForcesResetState
  intro s rest hpending
  exact ⟨(s.setPending rest).applyReset, step_cons s .reset rest hpending, rfl, rfl, rfl, fun v => ⟨rfl, reset_port v⟩,
    fun _ => ⟨rfl, rfl⟩, rfl, rfl, rfl⟩

/-! ## A read straight after an accepted write (`70_reset_and_hazards.md` R224) -/

/-- What a host read returns does not depend on the inputs still queued. -/
theorem hostRead_setPending (s : State) (q : List Input) (a : Addr) : hostRead (s.setPending q) a = hostRead s a := by
  unfold hostRead
  cases placeOf a <;> rfl

/-- The two steps: the write's row answers a state whose queue begins with the read, and the read hands over that state's word. -/
theorem writeThenReads_of_exec {s : State} {a : Nat} {d r : Word} {i : Instr} (hrow : WriteRow (BitVec.ofNat 16 a) d i)
    (h : ∀ q, ∃ t, exec i (s.setPending q) = .next t ∧ t.pending = q ∧ hostRead t (BitVec.ofNat 16 a) = r) : WriteThenReads s a d r := by
  intro rest hpending
  obtain ⟨t, hexec, hqueue, hread⟩ := h (.read (BitVec.ofNat 16 a) :: rest)
  have hwrite : step s = .next t := by
    rw [step_cons s _ _ hpending, runInput, hrow.decode_eq, hexec]
  refine ⟨t, _, hwrite, step_cons t _ rest hqueue, ?_, rfl⟩
  rw [State.setReadData_readData, hostRead_setPending, hread]

/-- A write that stores a melody word is read back. -/
theorem writeThenReads_mel {s : State} {v : Voice} {k : EventIndex} {n : Nat} {d : Word} {i : Instr} (hn : n ≤ 2)
    (hrow : WriteRow (BitVec.ofNat 16 (melAddr v k n)) d i)
    (h : ∀ q, exec i (s.setPending q) = .next ((s.setPending q).setWord (melAddr v k n) d)) : WriteThenReads s (melAddr v k n) d d := by
  refine writeThenReads_of_exec hrow fun q => ⟨_, h q, rfl, ?_⟩
  rw [hostRead_mel _ hn (melAddr_toNat v k n (by omega))]
  exact State.setWord_word_same _ _ d

/-- A write that leaves voice `v` with the registers `x` reads back as the word that `x` shows at that offset. -/
theorem writeThenReads_reg {s : State} {v : Voice} {o : Nat} {d r : Word} {i : Instr} (x : VoiceRegs) (ho : o ≤ 6)
    (hrow : WriteRow (BitVec.ofNat 16 (regAddr v o)) d i)
    (h : ∀ q, exec i (s.setPending q) = .next ((s.setPending q).setVoice v x)) (hx : regWord x o = r) :
    WriteThenReads s (regAddr v o) d r := by
  refine writeThenReads_of_exec hrow fun q => ⟨_, h q, rfl, ?_⟩
  have haddr : (BitVec.ofNat 16 (regAddr v o)).toNat = regAddr v o := Nat.mod_eq_of_lt (regAddr_lt v o (by omega))
  rw [hostRead_reg _ ho haddr, State.setVoice_voice_same, hx]

/-- A legal `VCFG` word reads back as its three low bits. -/
theorem vcfgToWord_of_legal {d : Word} {k : Kind} (h : kindBits k = d.extractLsb' 0 2) :
    vcfgToWord { kind := k, metal := d.getLsbD 2 } = d &&& 7 := by
  rw [vcfgToWord, h, vcfgWord_fields]

/-- 11 bits hold every legal `LEN`. -/
theorem setWidth_len {d : Word} (h : d.toNat ≤ 1024) : (d.setWidth 11).setWidth 32 = d := by
  apply BitVec.eq_of_toNat_eq
  rw [BitVec.toNat_setWidth, BitVec.toNat_setWidth]
  omega

/-- Settles O28: each address by its row of R86, with the accepted write of that row. -/
theorem readAfterWriteReturnsData : Obligations.ReadAfterWriteReturnsData := by
  unfold Obligations.ReadAfterWriteReturnsData
  intro s v d hrun
  have hrun' : ∀ q, (s.setPending q).run = false := fun _ => hrun
  refine ⟨fun k n hn => ?melody, fun hkind => ?vcfg, fun hd => ⟨?duty, ?seed⟩, fun hlen => ?len⟩
  case melody =>
    interval_cases n
    · exact writeThenReads_mel hn (.keyLo v k d) fun q => exec_wrKeyLo_accepted (hrun' q) v k d
    · exact writeThenReads_mel hn (.keyHi v k d) fun q => exec_wrKeyHi_accepted (hrun' q) v k d
    · exact writeThenReads_mel hn (.dur v k d) fun q => exec_wrDur_accepted (hrun' q) v k d
  case vcfg =>
    obtain ⟨kind, hbits, hc⟩ := exists_vcfgOfWord hkind
    exact writeThenReads_reg { s.voice v with vcfg := ⟨kind, d.getLsbD 2⟩ } (by decide) (.vcfg v d)
      (fun q => exec_wrVcfg_accepted (hrun' q) v hc) (vcfgToWord_of_legal hbits)
  case duty =>
    exact writeThenReads_reg { s.voice v with duty := d } (by decide) (.duty v d) (fun q => exec_wrDuty_accepted (hrun' q) v hd) rfl
  case seed =>
    exact writeThenReads_reg { s.voice v with seed := d } (by decide) (.seed v d) (fun q => exec_wrSeed_accepted (hrun' q) v hd) rfl
  case len =>
    exact writeThenReads_reg { s.voice v with len := d.setWidth 11 } (by decide) (.len v d)
      (fun q => exec_wrLen_accepted (hrun' q) v hlen) (setWidth_len hlen)

end Sys2Proof.Machine
